-- ==== Sys2Proof/Word.lean ====
section
/-! DEFINITION. The words CORE computes with (spec 00_scope R5, R8, R9, R11): unsigned 32-bit words, bytes, and the
ordered 4-tuple of words that `H`, `DIN` and `DOUT` are. -/

namespace Sys2Proof

/-- A 32-bit word, always read modulo 2^32 (R5, R8, R9). Bit 0 is the least significant. -/
abbrev Word := BitVec 32

/-- A byte of `BUF` (R29). -/
abbrev Byte := BitVec 8

/-- An ordered 4-tuple of words in the order `A, B, C, D` (R20): the shape of `H[0..3]`, `DIN[0..3]`, `DOUT[0..3]`. -/
structure Quad where
  a : Word
  b : Word
  c : Word
  d : Word
deriving DecidableEq, Repr

end Sys2Proof
end

