-- ==== Sys2Proof/Syntax.lean ====
section
/-! DEFINITION. The instruction set: the ten rows of spec/opcode_table.json (30_encoding R71, R76, R81), the six host
commands of format `CMD` and the four round micro-operations of format `RND`. -/

namespace Sys2Proof

/-- One constructor per row of the opcode table. `PROCESS` carries its byte offset `off`, a natural number (R72); a round
micro-operation carries `j = RI[3:0]`, its place inside its phase (R76). `SET`'s operands are on `DIN`, not in the word (R73). -/
inductive Instr where
  | init
  | get
  | set
  | process (off : Nat)
  | rclean
  | destroy
  | rnd1 (j : Fin 16)
  | rnd2 (j : Fin 16)
  | rnd3 (j : Fin 16)
  | rnd4 (j : Fin 16)
deriving DecidableEq, Repr

end Sys2Proof
end

