-- ==== Sys2Proof/Decode.lean ====
section
/-! DEFINITION. Decoding and encoding of command words (format `CMD`, 30_encoding R70 to R75) and of round indices (format
`RND`, R76). Both decoders are total; an illegal command word is rejected by name (R74). -/

namespace Sys2Proof

/-- Why a command word is illegal (R74). -/
inductive IllegalWord where
  /-- `op` is `0x0` or `0x7` to `0xF`. -/
  | opcode
  /-- `op` takes no argument and `arg` is not 0. -/
  | argument
deriving DecidableEq, Repr

/-- The field `op = cw[31:28]` (R70). -/
def opField (cw : Word) : BitVec 4 := cw.extractLsb' 28 4

/-- The field `arg = cw[27:0]` (R70). -/
def argField (cw : Word) : BitVec 28 := cw.extractLsb' 0 28

/-- A command word put together from its fields, `op ‖ arg` (R70). -/
def commandWord (op : BitVec 4) (arg : BitVec 28) : Word := op ++ arg

/-- A command that takes no argument: legal only with `arg = 0` (R72, R74). -/
def noArgument (i : Instr) (arg : BitVec 28) : Except IllegalWord Instr :=
  if arg = 0 then .ok i else .error .argument

/-- The command a 32-bit word stands for, or why it is illegal (R71, R72, R74). `op` alone chooses the operation (R70). -/
def decodeCommand (cw : Word) : Except IllegalWord Instr :=
  match (opField cw).toNat with
  | 1 => noArgument .init (argField cw)
  | 2 => noArgument .get (argField cw)
  | 3 => noArgument .set (argField cw)
  | 4 => .ok (.process (argField cw).toNat)
  | 5 => noArgument .rclean (argField cw)
  | 6 => noArgument .destroy (argField cw)
  | _ => .error .opcode

/-- The phase select `RI[5:4]` (R76). -/
def phaseField (ri : BitVec 6) : Fin 4 := (ri.extractLsb' 4 2).toFin

/-- The position inside the phase, `j = RI[3:0]` (R76). -/
def positionField (ri : BitVec 6) : Fin 16 := (ri.extractLsb' 0 4).toFin

/-- The micro-operation a round index stands for: all 64 values are legal (R76). -/
def decodeRound (ri : BitVec 6) : Instr :=
  match phaseField ri with
  | 0 => .rnd1 (positionField ri)
  | 1 => .rnd2 (positionField ri)
  | 2 => .rnd3 (positionField ri)
  | 3 => .rnd4 (positionField ri)

/-- The words of the two formats (R70, R76, R77): a 32-bit command word or a 6-bit round index. -/
inductive Encoding where
  | cmd (cw : Word)
  | rnd (ri : BitVec 6)
deriving DecidableEq, Repr

/-- The round index of position `j` in the phase selected by `ph` (R76). -/
def roundIndex (ph : Fin 4) (j : Fin 16) : BitVec 6 := BitVec.ofFin (w := 2) ph ++ BitVec.ofFin (w := 4) j

/-- The encoding of an instruction, from the tables of R71 and R76. For an `off` that does not fit the argument field
(no well-formed instruction) the field holds its low 28 bits. -/
def encode : Instr → Encoding
  | .init => .cmd (commandWord 0x1 0)
  | .get => .cmd (commandWord 0x2 0)
  | .set => .cmd (commandWord 0x3 0)
  | .process off => .cmd (commandWord 0x4 (BitVec.ofNat 28 off))
  | .rclean => .cmd (commandWord 0x5 0)
  | .destroy => .cmd (commandWord 0x6 0)
  | .rnd1 j => .rnd (roundIndex 0 j)
  | .rnd2 j => .rnd (roundIndex 1 j)
  | .rnd3 j => .rnd (roundIndex 2 j)
  | .rnd4 j => .rnd (roundIndex 3 j)

/-- The decoder over both formats: total, rejecting by name (R74, R76). -/
def decode : Encoding → Except IllegalWord Instr
  | .cmd cw => decodeCommand cw
  | .rnd ri => .ok (decodeRound ri)

/-- The bits of a row of spec/opcode_table.json laid out as the hardware takes them: up to one byte is a round index
(bits 7 and 6 must be 0, since the format has six), anything longer is a command word. `none` where the bits fit neither
format. DESIGN CHOICE (log entry 18): the spec gives a round index no byte of its own. -/
def tableEncoding (nbits w : Nat) : Option Encoding :=
  if nbits ≤ 8 then
    if w < 64 then some (.rnd (BitVec.ofNat 6 w)) else none
  else
    if w < 2 ^ 32 then some (.cmd (BitVec.ofNat 32 w)) else none

/-- What the decoder reads from an opcode-table row's bits. -/
def decodeTableWord (nbits w : Nat) : Option Instr :=
  match tableEncoding nbits w with
  | none => none
  | some e => (decode e).toOption

end Sys2Proof
end

