-- ==== Sys2Proof/Machine/Datapath.lean ====
section
/-! DEFINITION. The datapath units (40_datapath R90 to R104): adder, rotator, the four round functions and their
multiplexer, the two ROMs, the message-word index, the little-endian reader. Each is a pure total function. -/

namespace Sys2Proof.Machine

/-- `ADD32` (R90): the sum modulo 2^32, the carry out of bit 31 discarded. -/
def add32 (x y : Word) : Word := x + y

/-- `ADD32` of four words (R90): the grouping does not matter. -/
def sum4 (x y z u : Word) : Word := add32 (add32 (add32 x y) z) u

/-- `ADD32` on each word of two 4-tuples (the feed-forward of R126). -/
def addQuad (x y : Quad) : Quad :=
  { a := add32 x.a y.a, b := add32 x.b y.b, c := add32 x.c y.c, d := add32 x.d y.d }

/-- `ROTL32` (R91): `n` places toward bit 31, the bits that leave the top re-entering at the bottom. CORE uses the amounts
of `srom` only; `rotl32 x 0 = x`, as R91 allows. -/
def rotl32 (x : Word) (n : Nat) : Word := (x <<< n) ||| (x >>> (32 - n))

/-- `RF1` (R93): `(b ∧ c) ∨ (¬b ∧ d)`. -/
def rf1 (b c d : Word) : Word := (b &&& c) ||| (~~~b &&& d)

/-- `RF2` (R94): `(d ∧ b) ∨ (¬d ∧ c)`. -/
def rf2 (b c d : Word) : Word := (d &&& b) ||| (~~~d &&& c)

/-- `RF3` (R95): `b ⊕ c ⊕ d`. -/
def rf3 (b c d : Word) : Word := b ^^^ c ^^^ d

/-- `RF4` (R96): `c ⊕ (b ∨ ¬d)`. -/
def rf4 (b c d : Word) : Word := c ^^^ (b ||| ~~~d)

/-- `RFSEL` (R100): the round function the phase select chooses. -/
def rfsel (ph : Fin 4) (b c d : Word) : Word :=
  match ph with
  | 0 => rf1 b c d
  | 1 => rf2 b c d
  | 2 => rf3 b c d
  | 3 => rf4 b c d

/-- `KROM(0)` to `KROM(15)` (R97). -/
def kromPhase1 : Vector Word 16 :=
  #v[0xd76aa478, 0xe8c7b756, 0x242070db, 0xc1bdceee, 0xf57c0faf, 0x4787c62a, 0xa8304613, 0xfd469501,
     0x698098d8, 0x8b44f7af, 0xffff5bb1, 0x895cd7be, 0x6b901122, 0xfd987193, 0xa679438e, 0x49b40821]

/-- `KROM(16)` to `KROM(31)` (R97). -/
def kromPhase2 : Vector Word 16 :=
  #v[0xf61e2562, 0xc040b340, 0x265e5a51, 0xe9b6c7aa, 0xd62f105d, 0x02441453, 0xd8a1e681, 0xe7d3fbc8,
     0x21e1cde6, 0xc33707d6, 0xf4d50d87, 0x455a14ed, 0xa9e3e905, 0xfcefa3f8, 0x676f02d9, 0x8d2a4c8a]

/-- `KROM(32)` to `KROM(47)` (R97). -/
def kromPhase3 : Vector Word 16 :=
  #v[0xfffa3942, 0x8771f681, 0x6d9d6122, 0xfde5380c, 0xa4beea44, 0x4bdecfa9, 0xf6bb4b60, 0xbebfbc70,
     0x289b7ec6, 0xeaa127fa, 0xd4ef3085, 0x04881d05, 0xd9d4d039, 0xe6db99e5, 0x1fa27cf8, 0xc4ac5665]

/-- `KROM(48)` to `KROM(63)` (R97). -/
def kromPhase4 : Vector Word 16 :=
  #v[0xf4292244, 0x432aff97, 0xab9423a7, 0xfc93a039, 0x655b59c3, 0x8f0ccc92, 0xffeff47d, 0x85845dd1,
     0x6fa87e4f, 0xfe2ce6e0, 0xa3014314, 0x4e0811a1, 0xf7537e82, 0xbd3af235, 0x2ad7d2bb, 0xeb86d391]

/-- `KROM(i)` (R97), addressed by the round's own index: the values of the table, which the formula
`floor(2^32 × |sin(i + 1)|)` determines. -/
def krom (i : BitVec 6) : Word :=
  match phaseField i with
  | 0 => kromPhase1[positionField i]
  | 1 => kromPhase2[positionField i]
  | 2 => kromPhase3[positionField i]
  | 3 => kromPhase4[positionField i]

/-- The four rotation amounts of a phase, `k = 0` first (R98). -/
def shiftGroup (ph : Fin 4) : Vector Nat 4 :=
  match ph with
  | 0 => #v[7, 12, 17, 22]
  | 1 => #v[5, 9, 14, 20]
  | 2 => #v[4, 11, 16, 23]
  | 3 => #v[6, 10, 15, 21]

/-- `SROM(ph, k)` (R98). -/
def srom (ph : Fin 4) (k : Fin 4) : Nat := (shiftGroup ph)[k]

/-- The shift select `k = i mod 4 = RI[1:0]` (R76, R98). -/
def shiftSelect (i : BitVec 6) : Fin 4 := (i.extractLsb' 0 2).toFin

/-- `GIDX(i)` (R99): the index into `W` that round `i` uses, by the full round index. -/
def gidx (i : BitVec 6) : Fin 16 :=
  match phaseField i with
  | 0 => Fin.ofNat 16 i.toNat
  | 1 => Fin.ofNat 16 (5 * i.toNat + 1)
  | 2 => Fin.ofNat 16 (3 * i.toNat + 5)
  | 3 => Fin.ofNat 16 (7 * i.toNat)

/-- `LE32` (R53, R101): the word of four bytes, `b0` from the lowest address being the least significant. -/
def le32 (b0 b1 b2 b3 : Byte) : Word := b3 ++ b2 ++ b1 ++ b0

end Sys2Proof.Machine
end

