-- ==== Sys2Proof/Config.lean ====
section
/-! DEFINITION. The parameters the spec leaves open (00_scope R6) and the free values (93_implementation_defined U2 to U4).
A free value is a constant with no body: nothing in Lean can evaluate it or prove what it is. -/

namespace Sys2Proof

/-- The two open parameters of R6. They are configuration: no step changes them. State carries them so that a
statement about every state is a statement about every value of both (log entry 2). -/
structure Params where
  /-- `BUF_LEN`, the length of `BUF` in bytes. -/
  bufLen : Nat
  /-- `AUTO_CLEAN`, whether `PROCESS` itself zero-fills `W` at its end (R127). -/
  autoClean : Bool
deriving DecidableEq, Repr

/-- The parameters of `State.reset`. DESIGN CHOICE (log entry 2), unsafe for statements about `State.reset` alone:
the spec gives no value; 64 is the least `BUF_LEN` R6 allows and `false` the value D8 calls the cautious one. -/
def Config.resetParams : Params := { bufLen := 64, autoClean := false }

/-- FREE VALUE: the byte at address `addr` that nothing has written since the reset of index `draw` (U3, R37, D29).
DESIGN CHOICE (log entry 5), safe: the spec leaves it unspecified. -/
opaque Config.unwrittenByte (draw addr : Nat) : Byte

/-- FREE VALUE: word `k` of `DOUT` where no `GET` has produced it (U4, R37, D30), drawn under the index `draw`.
DESIGN CHOICE (log entry 6), safe. -/
opaque Config.undefinedDout (draw : Nat) (k : Fin 4) : Word

/-- FREE VALUE: what `T` holds when a block's rounds begin, before the first round writes it (R25, U2).
DESIGN CHOICE (log entry 8), safe: every round writes `T` before reading it. -/
opaque Config.unsetT (draw : Nat) : Word

end Sys2Proof
end

