-- ==== Sys2Proof/Machine/State.lean ====
section
/-! DEFINITION. The state of one CORE instance and of the host that drives it (10_state R20 to R38, 00_scope R13,
70_reset_and_hazards R206, R207), the reasons a step can stop, and the state after reset (R37, R190). -/

namespace Sys2Proof.Machine

/-- `STATUS.LIFE` (R30): 1 is `ACTIVE`, 0 is `DESTROYED`. -/
inductive Life where
  | destroyed
  | active
deriving DecidableEq, Repr

/-- `STATUS.FCAUSE` (R31). The value 3 is reserved and never produced (U6), so the type does not have it. -/
inductive FCause where
  | none
  | blockRange
  | illegalCmd
deriving DecidableEq, Repr

/-- The working registers, the sum register and the round index (R25, R27). They exist only inside one `PROCESS`. -/
structure Engine where
  a : Word
  b : Word
  c : Word
  d : Word
  t : Word
  ri : BitVec 6
deriving DecidableEq, Repr

/-- The written bytes of `BUF` (R29, R50): (address, byte) pairs, addresses strictly rising (`Memory.wf`). An address that
is not listed has not been written since reset; what it reads as is `State.bufByte`. -/
abbrev Memory := List Host.Cell

/-- One step of the host, or the reset event (R13, R206, R207). `command` carries the word on the command input and the
four words on `DIN` (R33). -/
inductive HostMove where
  | writeBuf (addr : Nat) (b : Byte)
  | readBuf (addr : Nat)
  | command (cw : Word) (din : Quad)
  | readStatus
  | readDout
  | reset
deriving DecidableEq, Repr

/-- What the host has got back from one of its reads (R206, R207). -/
inductive Reading where
  | bufByte (addr : Nat) (b : Byte)
  | statusWords (status finfo : Word)
  | doutWords (q : Quad)
deriving DecidableEq, Repr

/-- The whole machine. -/
structure State where
  /-- `BUF_LEN` and `AUTO_CLEAN` (R6): configuration, changed by no step. -/
  params : Params
  /-- `H[0..3]`, the digest state `A, B, C, D` (R20). -/
  h : Quad
  /-- `W[0..15]`, the message schedule (R23). -/
  w : Vector Word 16
  /-- `a, b, c, d, T, RI` inside a `PROCESS`; `none` between commands, where the spec has no such registers (R25, R27). -/
  engine : Option Engine
  /-- `STATUS.LIFE` (R30). -/
  life : Life
  /-- `STATUS.FAULT` (R30). -/
  fault : Bool
  /-- `STATUS.FCAUSE` (R30, R31). -/
  fcause : FCause
  /-- `FINFO` (R32). -/
  finfo : Word
  /-- `BUF` (R29, R50). -/
  buf : Memory
  /-- `DIN[0..3]` as sampled with the last command (R33, R73). -/
  din : Quad
  /-- `DOUT[0..3]` (R33, R73). -/
  dout : Quad
  /-- The host's moves still to come, in order (R13, R206). No queue of CORE: R196 has none. -/
  moves : List HostMove
  /-- What the host has read so far, latest first (R206). -/
  held : List Reading
  /-- The model's own: the index of the next free value. -/
  draws : Nat
  /-- The model's own: the index under which the unspecified content of `BUF` was drawn at the last reset (U3). -/
  bufDraw : Nat
deriving DecidableEq, Repr

/-- Why the machine has no next state although an agent asks for one. -/
inductive Fault where
  /-- A host buffer access at an address `>= BUF_LEN`, which R207 calls no move: `BUF` has no such byte (R50). Raised by
  `hostMove` for `writeBuf` and `readBuf`. Safe: the spec describes no outcome. -/
  | noSuchBufByte
deriving DecidableEq, Repr

/-- Why a step has no meaning. -/
inductive Refusal where
  /-- An instruction with no meaning yet. Raised by an arm of `exec` only. Safe. -/
  | notModelled (mnemonic : String)
  /-- `PROCESS`, in range and with no fault recorded, while `LIFE = DESTROYED`: undefined (R129, R169, U1), and a model
  "refuses that step". Raised by `execProcess`. Safe. -/
  | processAfterDestroy
  /-- A round micro-operation outside a `PROCESS`: "Micro-operations cannot be issued by the host" (R76), and the registers
  it works on do not exist there (R25). Raised by `execRnd1` to `execRnd4`; no step of the machine reaches it. Safe. -/
  | microOpOutsideProcess
deriving DecidableEq, Repr

/-- The initial value `IV` (R26). -/
def iv : Quad := { a := 0x67452301, b := 0xefcdab89, c := 0x98badcfe, d := 0x10325476 }

/-- All sixteen words of `W` zero (R24, R37). -/
def zeroSchedule : Vector Word 16 := Vector.replicate 16 0

/-- Four zero words. -/
def zeroQuad : Quad := { a := 0, b := 0, c := 0, d := 0 }

/-- `DOUT` where no `GET` has produced it: four free words (U4, log entry 6). -/
def undefinedDout (draw : Nat) : Quad :=
  { a := Config.undefinedDout draw 0, b := Config.undefinedDout draw 1
    c := Config.undefinedDout draw 2, d := Config.undefinedDout draw 3 }

/-- The state after reset of an instance with the parameters `p` (R37, R190), its host having no move yet (log entry 3).
`DIN` is DESIGN CHOICE zero (log entry 7); `DOUT` is a free value (log entry 6). -/
def State.resetWith (p : Params) : State :=
  { params := p
    h := iv
    w := zeroSchedule
    engine := none
    life := .active
    fault := false
    fcause := .none
    finfo := 0
    buf := []
    din := zeroQuad
    dout := undefinedDout 0
    moves := []
    held := []
    draws := 1
    bufDraw := 0 }

/-- The machine right after reset (R37, R190), with the parameters of log entry 2. -/
def State.reset : State := State.resetWith Config.resetParams

end Sys2Proof.Machine
end

