-- ==== Sys2Proof/Machine/Ops.lean ====
section
/-! DEFINITION. The named operations over memory and registers: the bytes of `BUF` (20_memory R50 to R61), the fills of
`W` and `BUF`, the sticky-fault gate (60_exceptions R164, R166), fault entry (R165) and the two ways out of it, `INIT`'s and
reset's (R167, R190). -/

namespace Sys2Proof.Machine

/-! ### `BUF` -/

/-- The form a memory keeps: addresses strictly rising. (An unlisted address holds no written byte, so no entry can equal
what an unlisted address reads as.) -/
def Memory.wf : Memory → Bool
  | [] => true
  | [_] => true
  | x :: y :: rest => decide (x.1 < y.1) && Memory.wf (y :: rest)

/-- What stands at an address: the byte last written, or `none` where nothing has been written since reset. This is the
one definition of what an unlisted address reads as. -/
def Memory.read : Memory → Nat → Option Byte
  | [], _ => none
  | (x, v) :: rest, a => if x = a then some v else Memory.read rest a

/-- Write one byte, keeping the form. -/
def Memory.write : Memory → Nat → Byte → Memory
  | [], a, b => [(a, b)]
  | (x, v) :: rest, a, b =>
    if a < x then (a, b) :: (x, v) :: rest
    else if a = x then (a, b) :: rest
    else (x, v) :: Memory.write rest a b

/-- `MemWrite(addr, n, bytes)` (R51): byte `k` to address `addr + k`. -/
def Memory.writeBytes : Memory → Nat → List Byte → Memory
  | m, _, [] => m
  | m, a, b :: rest => Memory.writeBytes (m.write a b) (a + 1) rest

/-- The byte a read of `BUF[a]` returns (R60): the last one written, else the unspecified one of the last reset, a free
value (U3, log entry 5). Reading changes nothing (R58). -/
def State.bufByte (s : State) (a : Nat) : Byte :=
  match s.buf.read a with
  | some b => b
  | none => Config.unwrittenByte s.bufDraw a

/-- `MemRead(addr, n)` (R51): `n` bytes, lowest address first. -/
def State.memRead (s : State) (addr : Nat) : Nat → List Byte
  | 0 => []
  | n + 1 => s.bufByte addr :: s.memRead (addr + 1) n

/-- `MemWrite(addr, n, bytes)` on the machine (R51). -/
def State.memWrite (s : State) (addr : Nat) (bytes : List Byte) : State :=
  { s with buf := s.buf.writeBytes addr bytes }

/-- `BUF[addr] <- 0` for `addr = 0 .. BUF_LEN-1` (R52, R144). -/
def State.zeroBuf (s : State) : State :=
  s.memWrite 0 (List.replicate s.params.bufLen 0)

/-! ### Registers -/

/-- `W[j] <- 0` for all `j` (R143, R127). -/
def State.clearSchedule (s : State) : State := { s with w := zeroSchedule }

/-- The registers of a constructed computation: `H = IV`, `W` zero, `ACTIVE`, no fault recorded (R140, R190). -/
def State.construct (s : State) : State :=
  { s with h := iv, w := zeroSchedule, life := .active, fault := false, fcause := .none, finfo := 0 }

/-- `DOUT` becomes undefined: a fresh free value (U4, R37, R166). -/
def State.undefineDout (s : State) : State :=
  { s with dout := undefinedDout s.draws, draws := s.draws + 1 }

/-! ### The exception -/

/-- Fault entry, `raise PreconditionFault(cause)` for the command word `cw` (R165): the fault record and nothing else. -/
def raise (cause : FCause) (cw : Word) (s : State) : State :=
  { s with fault := true, fcause := cause, finfo := cw }

/-- Check (1) of R164: while a fault is recorded the command is discarded, and what is left is `discarded` (R166). -/
def unlessFaulted (s discarded : State) (run : Host.Outcome State Fault Refusal) : Host.Outcome State Fault Refusal :=
  if s.fault then .next discarded else run

/-- The reset event (R190, R37): construction, `BUF` unspecified again, `DOUT` undefined, and a `PROCESS` that it falls
into has no other effect, so its working registers are gone. -/
def resetEvent (s : State) : State :=
  { s.construct with
    engine := none
    buf := []
    bufDraw := s.draws
    dout := undefinedDout s.draws
    draws := s.draws + 1 }

end Sys2Proof.Machine
end

