-- ==== Sys2Proof/Machine/Operands.lean ====
section
/-! DEFINITION. The operand forms: `trunc32` and `SET`'s operands on `DIN` (00_scope R9, 42_state_adapter R142), the block
that `PROCESS off` reads (30_encoding R72, R81; 20_memory R56 to R58), and the operands of a round (40_datapath R104). -/

namespace Sys2Proof.Machine

/-- `trunc32` of any integer (R9): modulo 2^32, never saturated, never rejected (R142). -/
def trunc32 (v : Int) : Word := BitVec.ofInt 32 v

/-- Four integer operands reduced into `DIN` (R142). -/
def truncQuad (v0 v1 v2 v3 : Int) : Quad :=
  { a := trunc32 v0, b := trunc32 v1, c := trunc32 v2, d := trunc32 v3 }

/-- What `SET` stores: `trunc32(DIN[k])` in `H[k]` (R73, R142). The port has 32 bits, so nothing is lost. -/
def setOperands (s : State) : Quad :=
  truncQuad s.din.a.toNat s.din.b.toNat s.din.c.toNat s.din.d.toNat

/-- The command word of `PROCESS off`, which `FINFO` records: `0x40000000 + off` (R161). -/
def processWord (off : Nat) : Word := BitVec.ofNat 32 (0x40000000 + off)

/-- `off + 64 <= BUF_LEN`, in the natural numbers (R56). -/
def blockInRange (off : Nat) (s : State) : Bool := decide (off + 64 ≤ s.params.bufLen)

/-- `LE32(MemRead(addr, 4))` (R53, R101). -/
def wordAt (s : State) (addr : Nat) : Word :=
  le32 (s.bufByte addr) (s.bufByte (addr + 1)) (s.bufByte (addr + 2)) (s.bufByte (addr + 3))

/-- The sixteen words `PROCESS off` loads: `W[j] = LE32(MemRead(off + 4 × j, 4))` (R122). Any `off` will do (R57). -/
def scheduleAt (s : State) (off : Nat) : Vector Word 16 := Vector.ofFn fun j => wordAt s (off + 4 * j.val)

/-- The rotation amount of round `i`: `s(i) = SROM(RI[5:4], RI[1:0])` (R98). -/
def roundShift (i : BitVec 6) : Nat := srom (phaseField i) (shiftSelect i)

/-- The message word of round `i`: `W[GIDX(i)]` (R104). -/
def roundWord (w : Vector Word 16) (i : BitVec 6) : Word := w[gidx i]

end Sys2Proof.Machine
end

