-- ==== Sys2Proof/Machine/Adapter.lean ====
section
/-! DEFINITION. The commands of the digest state adapter, `INIT`, `GET`, `SET`, `RCLEAN`, `DESTROY` (42_state_adapter R140 to
R144). While a fault is recorded only `INIT` and `DESTROY` act (60_exceptions R166). -/

namespace Sys2Proof.Machine

/-- `INIT` (R140): accepted in every state; `BUF` is not touched. -/
def execInit (s : State) : Host.Outcome State Fault Refusal := .next s.construct

/-- `GET` (R141): `DOUT <- H`, no other change. A discarded `GET` leaves `DOUT` undefined (R166, U4). -/
def execGet (s : State) : Host.Outcome State Fault Refusal :=
  unlessFaulted s s.undefineDout (.next { s with dout := s.h })

/-- `SET` (R142): `H[k] <- trunc32(DIN[k])`, no other change; `LIFE` and the fault record stay. -/
def execSet (s : State) : Host.Outcome State Fault Refusal :=
  unlessFaulted s s (.next { s with h := setOperands s })

/-- `RCLEAN` (R143): `W <- 0`, no other change. -/
def execRclean (s : State) : Host.Outcome State Fault Refusal :=
  unlessFaulted s s (.next s.clearSchedule)

/-- `DESTROY` (R144): `H`, `W` and all of `BUF` zero, `LIFE <- DESTROYED`; the fault record stays. Accepted in every state. -/
def execDestroy (s : State) : Host.Outcome State Fault Refusal :=
  .next { s.zeroBuf with h := zeroQuad, w := zeroSchedule, life := .destroyed }

end Sys2Proof.Machine
end

