-- ==== Sys2Proof/Machine/Rounds.lean ====
section
/-! DEFINITION. The four round micro-operations `RND1` to `RND4` (41_compress R124, R133 to R136). -/

namespace Sys2Proof.Machine

/-- The part all rounds share (R124): `T` from the round function's output `f`, then the four registers at once. The
amount is `SROM`'s, the constant `KROM`'s and the message word `W[GIDX(i)]`. -/
def roundWith (f : Word) (i : BitVec 6) (w : Vector Word 16) (e : Engine) : Engine :=
  let t := sum4 f e.a (krom i) (roundWord w i)
  { e with a := e.d, d := e.c, c := e.b, b := add32 e.b (rotl32 t (roundShift i)), t := t }

/-- Round `i = j` (R133). -/
def round1 (j : Fin 16) (w : Vector Word 16) (e : Engine) : Engine :=
  roundWith (rf1 e.b e.c e.d) (roundIndex 0 j) w e

/-- Round `i = 16 + j` (R134). -/
def round2 (j : Fin 16) (w : Vector Word 16) (e : Engine) : Engine :=
  roundWith (rf2 e.b e.c e.d) (roundIndex 1 j) w e

/-- Round `i = 32 + j` (R135). -/
def round3 (j : Fin 16) (w : Vector Word 16) (e : Engine) : Engine :=
  roundWith (rf3 e.b e.c e.d) (roundIndex 2 j) w e

/-- Round `i = 48 + j` (R136). -/
def round4 (j : Fin 16) (w : Vector Word 16) (e : Engine) : Engine :=
  roundWith (rf4 e.b e.c e.d) (roundIndex 3 j) w e

/-- A micro-operation on the working registers of the `PROCESS` it belongs to. Outside a `PROCESS` there is none (R76, R25). -/
def onEngine (f : Engine → Engine) (s : State) : Host.Outcome State Fault Refusal :=
  match s.engine with
  | none => .refused .microOpOutsideProcess
  | some e => .next { s with engine := some (f e) }

/-- `RND1` (R133). -/
def execRnd1 (j : Fin 16) (s : State) : Host.Outcome State Fault Refusal := onEngine (round1 j s.w) s

/-- `RND2` (R134). -/
def execRnd2 (j : Fin 16) (s : State) : Host.Outcome State Fault Refusal := onEngine (round2 j s.w) s

/-- `RND3` (R135). -/
def execRnd3 (j : Fin 16) (s : State) : Host.Outcome State Fault Refusal := onEngine (round3 j s.w) s

/-- `RND4` (R136). -/
def execRnd4 (j : Fin 16) (s : State) : Host.Outcome State Fault Refusal := onEngine (round4 j s.w) s

end Sys2Proof.Machine
end

