-- ==== Sys2Proof/Machine/Compress.lean ====
section
/-! DEFINITION. The compression command `PROCESS` (41_compress R120 to R132) and the pure function `COMPRESS` (R138). -/

namespace Sys2Proof.Machine

/-! ### The steps of R121 on the machine -/

/-- The working registers at the start of the rounds: `a..d <- H[0..3]`, `RI <- 0` (R121 steps 5 and 6, R123). `T` holds
a free value until the first round writes it (U2, log entry 8). -/
def startEngine (s : State) : Engine :=
  { a := s.h.a, b := s.h.b, c := s.h.c, d := s.h.d, t := Config.unsetT s.draws, ri := 0 }

/-- R121 steps 4 to 6: the schedule load, the working copies, `RI <- 0`. `H` keeps the pre-block state (R123). -/
def loadBlock (off : Nat) (s : State) : State :=
  { s with w := scheduleAt s off, engine := some (startEngine s) }

/-- `H[k] <- ADD32(H[k], ·)` at once (R121 step 8, R126). -/
def feedForward (h : Quad) (e : Engine) : Quad := addQuad h { a := e.a, b := e.b, c := e.c, d := e.d }

/-- R121 steps 8 and 9: feed-forward, then the clearing of `W` if `AUTO_CLEAN` (R126, R127). The working registers end
with the command (R25). -/
def finishBlock (e : Engine) (s : State) : State :=
  { s with
    h := feedForward s.h e
    w := if s.params.autoClean then zeroSchedule else s.w
    engine := none }

/-- What follows a round: `RI <- RI + 1`, or after the round with `RI = 63` the end of the loop (R27, R125). -/
def advance (s : State) : State :=
  match s.engine with
  | none => s
  | some e => if e.ri = 63 then finishBlock e s else { s with engine := some { e with ri := e.ri + 1 } }

/-- The round selected by `RI[5:4]` (R121 step 7). -/
def selectedRound (ri : BitVec 6) (w : Vector Word 16) (e : Engine) : Engine :=
  match phaseField ri with
  | 0 => round1 (positionField ri) w e
  | 1 => round2 (positionField ri) w e
  | 2 => round3 (positionField ri) w e
  | 3 => round4 (positionField ri) w e

/-- One turn of the loop of R121 step 7. -/
def roundTurn (s : State) : State :=
  match s.engine with
  | none => s
  | some e => advance { s with engine := some (selectedRound e.ri s.w e) }

/-- `n` turns of the loop. -/
def roundTurns : Nat → State → State
  | 0, s => s
  | n + 1, s => roundTurns n (roundTurn s)

/-- `PROCESS off` (R121): the sticky gate (R130), the range check (R56, R161), the undefined case (R129), then the load,
64 rounds, the feed-forward and the clearing as one step (R131). -/
def execProcess (off : Nat) (s : State) : Host.Outcome State Fault Refusal :=
  unlessFaulted s s <|
    if blockInRange off s then
      match s.life with
      | .destroyed => .refused .processAfterDestroy
      | .active => .next (roundTurns 64 (loadBlock off s))
    else .next (raise .blockRange (processWord off) s)

/-! ### `COMPRESS`, the pure function (R138) -/

/-- Byte `k` of a block. `COMPRESS` is applied to lists of 64 bytes only, which have every byte it asks for. -/
def blockByte (blk : List Byte) (k : Nat) : Byte := blk.getD k 0

/-- The schedule of a block: `W[j]` is the little-endian word of its bytes `4j .. 4j+3` (R122). -/
def schedule (blk : List Byte) : Vector Word 16 :=
  Vector.ofFn fun j =>
    le32 (blockByte blk (4 * j.val)) (blockByte blk (4 * j.val + 1)) (blockByte blk (4 * j.val + 2))
      (blockByte blk (4 * j.val + 3))

/-- The round step in its generic form (R124) on the four working words. -/
def roundStep (w : Vector Word 16) (q : Quad) (i : BitVec 6) : Quad :=
  let t := sum4 (rfsel (phaseField i) q.b q.c q.d) q.a (krom i) (roundWord w i)
  { a := q.d, b := add32 q.b (rotl32 t (roundShift i)), c := q.b, d := q.c }

/-- The rounds `first`, `first + 1`, .. , `n` of them, in that order (R125). -/
def roundsFrom (w : Vector Word 16) : Nat → BitVec 6 → Quad → Quad
  | 0, _, q => q
  | n + 1, first, q => roundsFrom w n (first + 1) (roundStep w q first)

/-- `COMPRESS(h, blk)` (R138): the 64 rounds on a copy of `h`, added back into `h` (R126). -/
def compress (h : Quad) (blk : List Byte) : Quad := addQuad h (roundsFrom (schedule blk) 64 0 h)

end Sys2Proof.Machine
end

