-- ==== Sys2Proof/Machine/Dispatch.lean ====
section
/-! DEFINITION. The meaning of each instruction, one arm per constructor (30_encoding R71, R76). -/

namespace Sys2Proof.Machine

def exec (i : Instr) (s : State) : Host.Outcome State Fault Refusal :=
  match i with
  | .init => Sys2Proof.Machine.execInit s
  | .get => Sys2Proof.Machine.execGet s
  | .set => Sys2Proof.Machine.execSet s
  | .process off => Sys2Proof.Machine.execProcess off s
  | .rclean => Sys2Proof.Machine.execRclean s
  | .destroy => Sys2Proof.Machine.execDestroy s
  | .rnd1 j => Sys2Proof.Machine.execRnd1 j s
  | .rnd2 j => Sys2Proof.Machine.execRnd2 j s
  | .rnd3 j => Sys2Proof.Machine.execRnd3 j s
  | .rnd4 j => Sys2Proof.Machine.execRnd4 j s

end Sys2Proof.Machine
end

