-- ==== Sys2Proof/Machine/Flags.lean ====
section
/-! DEFINITION. CORE has no flags or condition codes and no operation sets one (10_state R34). What it has is the status
record: the words `STATUS` and `FINFO` the host reads as outputs (10_state R30 to R32). -/

namespace Sys2Proof.Machine

/-- Bit 0 of `STATUS`, `LIFE` (R30). -/
def Life.bit : Life → BitVec 1
  | .destroyed => 0
  | .active => 1

/-- Bits 3:2 of `STATUS`, `FCAUSE` (R31). -/
def FCause.code : FCause → BitVec 2
  | .none => 0
  | .blockRange => 1
  | .illegalCmd => 2

/-- The read-only word `STATUS` (R30): `FCAUSE ‖ FAULT ‖ LIFE` below 28 reserved bits that read as 0. -/
def State.status (s : State) : Word :=
  (0 : BitVec 28) ++ (s.fcause.code ++ (BitVec.ofBool s.fault ++ s.life.bit))

end Sys2Proof.Machine
end

