-- ==== Sys2Proof/Machine/Sequencer.lean ====
section
/-! DEFINITION. What a step does around `exec`: the host's moves (00_scope R13, 70_reset_and_hazards R206, R207), the
checks on a command word (60_exceptions R164), and the round sequencer inside a `PROCESS` (10_state R27, 41_compress R125). -/

namespace Sys2Proof.Machine

/-- A command word the decoder rejects: discarded while a fault is recorded, else `ILLEGAL_CMD` (R74, R164, R166). -/
def illegalCommand (cw : Word) (s : State) : State := if s.fault then s else raise .illegalCmd cw s

/-- The host issues the command word `cw` with `din` on the operand port (R33, R73, R164). -/
def issueCommand (cw : Word) (din : Quad) (s : State) : Host.Outcome State Fault Refusal :=
  match decodeCommand cw with
  | .ok i => exec i { s with din := din }
  | .error _ => .next (illegalCommand cw { s with din := din })

/-- The host gets something back (R206). -/
def State.hold (s : State) (r : Reading) : State := { s with held := r :: s.held }

/-- A host access to `BUF[addr]`: there is none at `addr >= BUF_LEN` (R50, R207). -/
def ifBufHas (addr : Nat) (s t : State) : Host.Outcome State Fault Refusal :=
  if addr < s.params.bufLen then .next t else .fault .noSuchBufByte

/-- One move of the host, or the reset event, between two commands (R207). -/
def hostMove (mv : HostMove) (s : State) : Host.Outcome State Fault Refusal :=
  match mv with
  | .writeBuf addr b => ifBufHas addr s (s.memWrite addr [b])
  | .readBuf addr => ifBufHas addr s (s.hold (.bufByte addr (s.bufByte addr)))
  | .command cw din => issueCommand cw din s
  | .readStatus => .next (s.hold (.statusWords s.status s.finfo))
  | .readDout => .next (s.hold (.doutWords s.dout))
  | .reset => .next (resetEvent s)

/-- The next micro-operation of a `PROCESS` that is under way at `RI = ri`, and what follows it (R121 step 7, R125). -/
def microStep (ri : BitVec 6) (s : State) : Host.Outcome State Fault Refusal :=
  match exec (decodeRound ri) s with
  | .next t => .next (advance t)
  | .fault r => .fault r
  | .refused r => .refused r

/-- One step. Reset may fall anywhere, also between two rounds (R190). While a `PROCESS` is under way no host move has its
turn (R4, R131). Otherwise the host makes its next move; with none left CORE does nothing, since it never initiates a
step and its state simply persists (R206, R207). -/
def stepOnce (s : State) : Host.Outcome State Fault Refusal :=
  match s.moves, s.engine with
  | .reset :: rest, _ => hostMove .reset { s with moves := rest }
  | _, some e => microStep e.ri s
  | mv :: rest, none => hostMove mv { s with moves := rest }
  | [], none => .next s

/-- An instruction word put where the next step takes its instruction (log entries 3 and 18). A command word becomes the
host's next move, with the operands that stand on `DIN`, and no `PROCESS` is under way. A round index becomes `RI` of a
`PROCESS` under way, with the working copies of R123, and no reset comes first. -/
def placeEncoding (e : Encoding) (s : State) : State :=
  match e with
  | .cmd cw => { s with moves := .command cw s.din :: s.moves, engine := none }
  | .rnd ri => { s with moves := s.moves.dropWhile (· == .reset), engine := some { startEngine s with ri := ri } }

end Sys2Proof.Machine
end

