-- ==== Sys2Proof/Machine/Step.lean ====
section
/-! DEFINITION. One step of the machine, and the placing of an instruction's bits where the next step takes them. -/

namespace Sys2Proof.Machine

/-- One step: one host move with the command it issues, or one round of a `PROCESS` under way. -/
def step (s : State) : Host.Outcome State Fault Refusal := stepOnce s

/-- `s` with the instruction of an opcode-table row's bits as what the next step runs; unchanged where the bits fit
neither format. -/
def State.withFetchWord (s : State) (nbits w : Nat) : State :=
  match tableEncoding nbits w with
  | none => s
  | some e => placeEncoding e s

end Sys2Proof.Machine
end

