-- ==== Sys2Proof/Machine/HostDuties.lean ====
section
/-! DEFINITION. The host's side of the contract, as plain functions: padding (70_reset_and_hazards R194), digest
serialisation (42_state_adapter R145), MD5 of a message by `COMPRESS` (41_compress R137, R138), the moves of one digest
computation (R193, R195, R206), and the assembler's lines (30_encoding R78, R79). CORE calls none of them. -/

namespace Sys2Proof.Machine

/-! ### Bytes -/

/-- Byte `m` of a number, least significant first: `(n div 2^(8m)) mod 256` (R145). -/
def byteOf (n m : Nat) : Byte := BitVec.ofNat 8 (n / 2 ^ (8 * m))

/-- The first `k` bytes of a number, least significant first. -/
def littleEndian (n : Nat) : Nat → List Byte
  | 0 => []
  | k + 1 => littleEndian n k ++ [byteOf n k]

/-- The four bytes of a word, least significant first (R145). -/
def wordBytes (x : Word) : List Byte := littleEndian x.toNat 4

/-- The 16 digest bytes of a result `DOUT`: `A` first, then `B`, `C`, `D` (R145). -/
def serialize (q : Quad) : List Byte := wordBytes q.a ++ wordBytes q.b ++ wordBytes q.c ++ wordBytes q.d

/-! ### Padding -/

/-- `z`, the number of zero bytes: `(55 - n) mod 64` in the integers (R194). -/
def padZeros (n : Nat) : Nat := ((55 - (n : Int)) % 64).toNat

/-- `PAD(m)` (R194): the message, `0x80`, `z` zeros, and the bit length modulo 2^64, least significant byte first. -/
def pad (m : List Byte) : List Byte :=
  m ++ 0x80 :: (List.replicate (padZeros m.length) 0 ++ littleEndian (8 * m.length % 2 ^ 64) 8)

/-- The first `n` 64-byte pieces of a byte string, in order (R194). -/
def pieces : Nat → List Byte → List (List Byte)
  | 0, _ => []
  | n + 1, bs => bs.take 64 :: pieces n (bs.drop 64)

/-- The blocks of a padded message (R194). -/
def messageBlocks (m : List Byte) : List (List Byte) := pieces ((pad m).length / 64) (pad m)

/-- The digest state after the blocks, in order, from the state `h` (R137). -/
def compressAll (h : Quad) (blocks : List (List Byte)) : Quad := blocks.foldl compress h

/-- The MD5 digest of a message (R138). -/
def md5 (m : List Byte) : List Byte := serialize (compressAll iv (messageBlocks m))

/-! ### The host's moves -/

/-- Issue a command that reads nothing from `DIN`: what stands there is ignored (R73). -/
def issue (i : Instr) : List HostMove :=
  match encode i with
  | .cmd cw => [.command cw zeroQuad]
  | .rnd _ => []

/-- `BUF[addr .. addr+n-1] := b0 b1 ...`, in ascending address order (R78). -/
def writeMoves : Nat → List Byte → List HostMove
  | _, [] => []
  | addr, b :: rest => .writeBuf addr b :: writeMoves (addr + 1) rest

/-- What R193 asks for a block that stands at `off`: `PROCESS off`, the check of `STATUS.FAULT` where `check` is set, and
`RCLEAN`. R193 lists the check, R206 does not (log entry 25). -/
def processMoves (check : Bool) (off : Nat) : List HostMove :=
  issue (.process off) ++ ((if check then [.readStatus] else []) ++ issue .rclean)

/-- `PROCESS` at `off`, `off + 64`, .. for `n` blocks, in that order (R193, R198). -/
def processRun (check : Bool) : Nat → Nat → List HostMove
  | _, 0 => []
  | off, n + 1 => processMoves check off ++ processRun check (off + 64) n

/-- The host's check of `STATUS.FAULT` (R193) on what it has read: the bit is 0. Other readings carry no such bit. -/
def Reading.checkPassed : Reading → Bool
  | .statusWords status _ => !status.getLsbD 1
  | .bufByte _ _ => true
  | .doutWords _ => true

/-- Blocks that the host places in `BUF` at once, from `off` on (R193). -/
structure Batch where
  off : Nat
  blocks : List (List Byte)
deriving DecidableEq, Repr

/-- Every block is complete (R194) and the last one ends within `BUF` (R56). -/
def Batch.fits (p : Params) (b : Batch) : Bool :=
  b.blocks.all (fun blk => decide (blk.length = 64)) && decide (b.off + 64 * b.blocks.length ≤ p.bufLen)

/-- The moves of a batch (R193): the bytes of its blocks, then each block's `PROCESS` in order. -/
def Batch.moves (check : Bool) (b : Batch) : List HostMove :=
  writeMoves b.off b.blocks.flatten ++ processRun check b.off b.blocks.length

/-- One block at `off`: write its 64 bytes, `PROCESS off`, the check, `RCLEAN` (R193). -/
def blockMoves (check : Bool) (off : Nat) (blk : List Byte) : List HostMove :=
  Batch.moves check { off := off, blocks := [blk] }

/-- The layout in which each block in turn is written to `BUF[off .. off+63]`. -/
def oneByOne (off : Nat) (blocks : List (List Byte)) : List Batch := blocks.map fun blk => { off := off, blocks := [blk] }

/-- The layout in which all blocks stand in `BUF` at once, at `off`, `off + 64`, .. (R193). -/
def allAtOnce (off : Nat) (blocks : List (List Byte)) : List Batch := [{ off := off, blocks := blocks }]

/-- The moves of several batches, in order. -/
def batchesMoves (check : Bool) (bs : List Batch) : List HostMove := bs.flatMap (Batch.moves check)

/-- The blocks of several batches, in order. -/
def batchesBlocks (bs : List Batch) : List (List Byte) := bs.flatMap Batch.blocks

/-- How a digest computation begins (R206): "`INIT` (or reset)". `constructed` is the run that starts from the state a reset
or an `INIT` has left, as the programs of 95_test_vectors section 9 do. -/
inductive ComputationStart where
  | init
  | reset
  | constructed
deriving DecidableEq, Repr

/-- The moves of the beginning. -/
def ComputationStart.moves : ComputationStart → List HostMove
  | .init => issue .init
  | .reset => [.reset]
  | .constructed => []

/-- The states in which a computation can so begin: reset may come at any time (R190), a command between commands, and
`constructed` needs a constructed computation. -/
def ComputationStart.admits : ComputationStart → State → Prop
  | .init, s => s.engine = none
  | .reset, _ => True
  | .constructed, s => s.engine = none ∧ s.life = .active ∧ s.fault = false ∧ s.h = iv

/-- How the host carries out one digest computation: its beginning, whether it checks `STATUS.FAULT` after each `PROCESS`,
and where in `BUF` it places which blocks. -/
structure DigestPlan where
  start : ComputationStart
  check : Bool
  batches : List Batch
deriving DecidableEq, Repr

/-- The plan computes the digest of `m` on an instance with the parameters `p`: every batch fits, and the blocks are those of
the padded message in order (R194, R198). -/
def DigestPlan.wf (p : Params) (m : List Byte) (pl : DigestPlan) : Bool :=
  pl.batches.all (Batch.fits p) && decide (batchesBlocks pl.batches = messageBlocks m)

/-- One digest computation (R195, R206): `INIT` or reset, the blocks, `GET` and the reading of `DOUT`, `DESTROY`. -/
def DigestPlan.moves (pl : DigestPlan) : List HostMove :=
  pl.start.moves ++ (batchesMoves pl.check pl.batches ++ (issue .get ++ (.readDout :: issue .destroy)))

/-! ### The assembler's lines -/

/-- A line of the assembler (R78), the pseudo-instructions of R79 among them. The operands of `SET` and `RESTORE` are
integers and are reduced into the 32-bit port (R142). -/
inductive AsmLine where
  | init
  | get
  | set (v0 v1 v2 v3 : Int)
  | process (off : Nat)
  | rclean
  | destroy
  | bufAssign (addr : Nat) (bytes : List Byte)
  | processC (off : Nat)
  | save
  | restore (v0 v1 v2 v3 : Int)
deriving DecidableEq, Repr

/-- `SET` with its operands placed on `DIN` (R73, R78). -/
def setMoves (v0 v1 v2 v3 : Int) : List HostMove :=
  match encode .set with
  | .cmd cw => [.command cw (truncQuad v0 v1 v2 v3)]
  | .rnd _ => []

/-- The host's moves a line stands for (R78, R79). -/
def AsmLine.expand : AsmLine → List HostMove
  | .init => issue .init
  | .get => issue .get
  | .set v0 v1 v2 v3 => setMoves v0 v1 v2 v3
  | .process off => issue (.process off)
  | .rclean => issue .rclean
  | .destroy => issue .destroy
  | .bufAssign addr bytes => writeMoves addr bytes
  | .processC off => issue (.process off) ++ issue .rclean
  | .save => issue .get
  | .restore v0 v1 v2 v3 => setMoves v0 v1 v2 v3

/-- The host's moves of a program, line by line. -/
def assemble (lines : List AsmLine) : List HostMove := lines.flatMap AsmLine.expand

end Sys2Proof.Machine
end

