-- ==== Sys2Proof/WellFormed.lean ====
section
/-! DEFINITION. What a well-formed instruction and a well-formed configuration are (30_encoding R72, R76; 00_scope R6). -/

namespace Sys2Proof

/-- An instruction its format can hold: `off` fits the 28-bit argument field (R72). The other commands carry nothing,
and every position `j` of a round fits its four bits (R76). -/
def Instr.wf : Instr → Bool
  | .init => true
  | .get => true
  | .set => true
  | .process off => decide (off < 2 ^ 28)
  | .rclean => true
  | .destroy => true
  | .rnd1 _ => true
  | .rnd2 _ => true
  | .rnd3 _ => true
  | .rnd4 _ => true

/-- The constraint of R6 on `BUF_LEN`: `64 <= BUF_LEN <= 2^28`. `AUTO_CLEAN` has none. -/
def Params.wf (p : Params) : Bool :=
  decide (64 ≤ p.bufLen) && decide (p.bufLen ≤ 2 ^ 28)

end Sys2Proof
end

