-- ==== Sys2Proof/Safety.lean ====
section
/-! DEFINITION. What claims call a good state, a good host, and a step or run that goes well (10_state R31, R32; 20_memory
R50; 70_reset_and_hazards R206, R207). -/

namespace Sys2Proof.Machine

/-- The relations between fields that the spec states or that follow from who writes them: the parameters in range (R6);
`BUF` in its form and within its length (R50); the fault record as R31 and R32 say; a `PROCESS` under way only on an
`ACTIVE` instance with no fault recorded (R121 steps 1 and 3). -/
structure State.Inv (s : State) : Prop where
  params_wf : s.params.wf = true
  buf_wf : s.buf.wf = true
  buf_in_range : ∀ c ∈ s.buf, c.1 < s.params.bufLen
  no_fault_record : s.fault = false → s.fcause = .none ∧ s.finfo = 0
  fault_record : s.fault = true → s.fcause = .blockRange ∨ s.fcause = .illegalCmd
  engine_ok : s.engine ≠ none → s.life = .active ∧ s.fault = false

/-- A move the host can make: a buffer access needs an address below `BUF_LEN` (R207). -/
def HostMove.wf (p : Params) : HostMove → Bool
  | .writeBuf addr _ => decide (addr < p.bufLen)
  | .readBuf addr => decide (addr < p.bufLen)
  | .command _ _ => true
  | .readStatus => true
  | .readDout => true
  | .reset => true

/-- The host keeps to the moves R207 gives it. -/
def State.hostWf (s : State) : Bool := s.moves.all (HostMove.wf s.params)

/-- The condition R128 gives for `PROCESS` to complete, its range apart: `LIFE = ACTIVE` and `FAULT = 0`. -/
def State.ready (s : State) : Prop := s.life = .active ∧ s.fault = false

/-- A host command, as against a micro-operation, which the host cannot issue (R76, R81). -/
def isCommand : Instr → Bool
  | .init => true
  | .get => true
  | .set => true
  | .process _ => true
  | .rclean => true
  | .destroy => true
  | .rnd1 _ => false
  | .rnd2 _ => false
  | .rnd3 _ => false
  | .rnd4 _ => false

/-- The undefined step of R129: `PROCESS`, in range, with no fault recorded, on a `DESTROYED` instance. -/
def undefinedStep (off : Nat) (s : State) : Prop :=
  s.fault = false ∧ off + 64 ≤ s.params.bufLen ∧ s.life = .destroyed

/-- A run of `n` steps goes well (R206): each has a next state, and none records a fault. -/
def goesWell : Nat → State → Bool
  | 0, _ => true
  | n + 1, s =>
    match step s with
    | .next t => !t.fault && goesWell n t
    | .fault _ => false
    | .refused _ => false

end Sys2Proof.Machine
end

