-- ==== Sys2Proof/Certificates/Slice0/Obligations.lean ====
section
/-! DEFINITION. The statements for the provers. Each docstring names the rule of spec/ it formalises. Statements over every
state speak of every value of `BUF_LEN` and `AUTO_CLEAN`, which State carries (log entry 2). -/

open Sys2Proof Sys2Proof.Machine

/-! ### Encoding -/

/-- Words written out from the encodings of R71, R74 and R76 (95_test_vectors section 2) decode to what they stand for. -/
def Obligations.WrittenOutWordsDecode : Prop :=
  decodeCommand 0x10000000 = .ok .init ∧ decodeCommand 0x20000000 = .ok .get ∧ decodeCommand 0x30000000 = .ok .set ∧
  decodeCommand 0x40000000 = .ok (.process 0) ∧ decodeCommand 0x40000003 = .ok (.process 3) ∧
  decodeCommand 0x4fffffff = .ok (.process 268435455) ∧
  decodeCommand 0x50000000 = .ok .rclean ∧ decodeCommand 0x60000000 = .ok .destroy ∧
  decodeCommand 0x00000000 = .error .opcode ∧ decodeCommand 0x80000000 = .error .opcode ∧
  decodeCommand 0x50000001 = .error .argument ∧ decodeCommand 0x28000000 = .error .argument ∧
  decodeRound 0b001111 = .rnd1 15 ∧ decodeRound 0b010000 = .rnd2 0 ∧ decodeRound 0b101111 = .rnd3 15 ∧
  decodeRound 0b110101 = .rnd4 5

/-- Decoding the encoding of a well-formed instruction gives it back: every `off` below 2^28, every position of every
round (R70 to R72, R76). -/
def Obligations.DecodeOfEncode : Prop :=
  ∀ i : Instr, i.wf = true → decode (encode i) = .ok i

/-- What decodes is well-formed and encodes to the word it came from: each legal word has one meaning and no two legal
words share one (R71, "The six patterns are disjoint"; R76). -/
def Obligations.EncodeOfDecode : Prop :=
  ∀ (e : Encoding) (i : Instr), decode e = .ok i → i.wf = true ∧ encode i = e

/-- R74: exactly which command words are illegal, that every other word is one of the six commands, and that an illegal
word executes nothing and raises `ILLEGAL_CMD` (no fault being recorded yet, R164). That `DIN` then holds the words the
host put there is the model's reading, log entry 15. -/
def Obligations.IllegalWordsRaise : Prop :=
  ∀ cw : Word,
    ((cw.toNat / 2 ^ 28 = 0 ∨ 7 ≤ cw.toNat / 2 ^ 28) → decodeCommand cw = .error .opcode) ∧
    (cw.toNat / 2 ^ 28 ∈ [1, 2, 3, 5, 6] → cw.toNat % 2 ^ 28 ≠ 0 → decodeCommand cw = .error .argument) ∧
    ((cw.toNat / 2 ^ 28 ∈ [1, 2, 3, 5, 6] ∧ cw.toNat % 2 ^ 28 = 0) ∨ cw.toNat / 2 ^ 28 = 4 →
      ∃ i, decodeCommand cw = .ok i ∧ isCommand i = true) ∧
    ∀ (din : Quad) (s : State) (r : IllegalWord), decodeCommand cw = .error r → s.fault = false →
      issueCommand cw din s = .next { s with din := din, fault := true, fcause := .illegalCmd, finfo := cw }

/-- R75: of the 2^32 command words, `5 + 2^28` are legal. -/
def Obligations.LegalWordCount : Prop :=
  ((Finset.range (2 ^ 32)).filter fun n => (decodeCommand (BitVec.ofNat 32 n)).isOk = true).card = 5 + 2 ^ 28

/-- The round-index decode of R76: the phase is `i div 16`, the position `i mod 16`, all 64 indices are legal, and no
command word decodes to a micro-operation. -/
def Obligations.RoundIndexSelectsMicroOperation : Prop :=
  (∀ i : Fin 64, decodeRound (BitVec.ofFin (w := 6) i) =
    if i.val < 16 then .rnd1 (Fin.ofNat 16 i.val)
    else if i.val < 32 then .rnd2 (Fin.ofNat 16 i.val)
    else if i.val < 48 then .rnd3 (Fin.ofNat 16 i.val)
    else .rnd4 (Fin.ofNat 16 i.val)) ∧
  ∀ (cw : Word) (i : Instr), decodeCommand cw = .ok i → isCommand i = true

/-! ### Datapath -/

/-- R90: `ADD32` is the sum modulo 2^32 of two words and of four, commutative and associative, and at the corner cases
the rule lists. -/
def Obligations.AdderIsModular : Prop :=
  (∀ x y : Word, (add32 x y).toNat = (x.toNat + y.toNat) % 2 ^ 32) ∧
  (∀ x y : Word, add32 x y = add32 y x) ∧
  (∀ x y z : Word, add32 (add32 x y) z = add32 x (add32 y z)) ∧
  (∀ x y z u : Word, (sum4 x y z u).toNat = (x.toNat + y.toNat + z.toNat + u.toNat) % 2 ^ 32) ∧
  (∀ x : Word, add32 x 0 = x) ∧
  add32 0xFFFFFFFF 1 = 0 ∧ add32 0xFFFFFFFF 0xFFFFFFFF = 0xFFFFFFFE ∧ add32 0x80000000 0x80000000 = 0 ∧
  add32 0x98badcfe 0x67452301 = 0xFFFFFFFF ∧
  sum4 0x98badcfe 0x67452301 0xd76aa478 0x00000080 = 0xd76aa4f7

/-- R91: `ROTL32` by 1 to 31 places, by its formula and bit by bit, and the sixteen amounts the round step uses. That
"left" is toward bit 31 is general knowledge by the rule's own words (log entry 17). -/
def Obligations.RotationMovesEveryBitLeft : Prop :=
  (∀ (x : Word) (n : Nat), 1 ≤ n → n ≤ 31 →
    (rotl32 x n).toNat = (x.toNat * 2 ^ n) % 2 ^ 32 + x.toNat / 2 ^ (32 - n) ∧
    ∀ k < 32, (rotl32 x n).getLsbD k = x.getLsbD ((k + 32 - n) % 32)) ∧
  (∀ i : BitVec 6, roundShift i ∈ ([4, 5, 6, 7, 9, 10, 11, 12, 14, 15, 16, 17, 20, 21, 22, 23] : List Nat)) ∧
  rotl32 0x80000001 7 = 0x000000c0 ∧ rotl32 0x12345678 16 = 0x56781234 ∧ rotl32 0xd76aa4f7 7 = 0xb5527beb

/-- The rows of the truth table of R92, as (`RF1`, `RF2`, `RF3`, `RF4`) for the bits of `b`, `c`, `d`. -/
def Sys2Proof.Machine.truthRow : Bool → Bool → Bool → Bool × Bool × Bool × Bool
  | false, false, false => (false, false, false, true)
  | false, false, true => (true, false, true, false)
  | false, true, false => (false, true, true, false)
  | false, true, true => (true, false, false, true)
  | true, false, false => (false, false, true, true)
  | true, false, true => (false, true, false, true)
  | true, true, false => (true, true, false, false)
  | true, true, true => (true, true, true, false)

/-- R92: each round function is its column of the truth table at each of the 32 bit positions. -/
def Obligations.RoundFunctionsFollowTruthTable : Prop :=
  ∀ (b c d : Word) (k : Nat), k < 32 →
    ((rf1 b c d).getLsbD k, (rf2 b c d).getLsbD k, (rf3 b c d).getLsbD k, (rf4 b c d).getLsbD k) =
      truthRow (b.getLsbD k) (c.getLsbD k) (d.getLsbD k)

/-- R97: each of the 64 entries of the constant ROM is `floor(2^32 × |sin(i + 1)|)`, the angle in radians, and round `i`
adds the entry of its own index. That the angle is in radians is general knowledge by the rule's own words (log entry
17). -/
def Obligations.ConstantRomIsTheSineTable : Prop :=
  (∀ i : Fin 64, ((krom (BitVec.ofFin (w := 6) i)).toNat : ℤ) = ⌊(2 : ℝ) ^ 32 * |Real.sin ((i.val : ℝ) + 1)|⌋) ∧
  ∀ (f : Word) (i : BitVec 6) (w : Vector Word 16) (e : Engine),
    (roundWith f i w e).t = sum4 f e.a (krom i) w[gidx i]

/-- R99: the message-word index by the full round index and by the position in the phase, and that it is a permutation
within each phase. -/
def Obligations.MessageIndexPermutesEachPhase : Prop :=
  (∀ i : Fin 64, (gidx (BitVec.ofFin (w := 6) i)).val =
    if i.val < 16 then i.val
    else if i.val < 32 then (5 * i.val + 1) % 16
    else if i.val < 48 then (3 * i.val + 5) % 16
    else (7 * i.val) % 16) ∧
  (∀ j : Fin 16, (gidx (roundIndex 0 j)).val = j.val ∧ (gidx (roundIndex 1 j)).val = (5 * j.val + 1) % 16 ∧
    (gidx (roundIndex 2 j)).val = (3 * j.val + 5) % 16 ∧ (gidx (roundIndex 3 j)).val = (7 * j.val) % 16) ∧
  ∀ ph : Fin 4, Function.Bijective fun j : Fin 16 => gidx (roundIndex ph j)

/-- R98: the rotation amounts, and that round `i` uses `SROM(i div 16, i mod 4)`. -/
def Obligations.ShiftAmountsByPhase : Prop :=
  (∀ ph k : Fin 4, srom ph k =
    (([[7, 12, 17, 22], [5, 9, 14, 20], [4, 11, 16, 23], [6, 10, 15, 21]] : List (List Nat)).getD ph.val []).getD k.val 0) ∧
  ∀ i : Fin 64, roundShift (BitVec.ofFin (w := 6) i) = srom (Fin.ofNat 4 (i.val / 16)) (Fin.ofNat 4 i.val)

/-- R101: the little-endian word of four bytes, and that the reader forms each `W[j]` from `MemRead(off + 4 × j, 4)`. That
the lowest address is least significant is general knowledge by the rule's own words (log entry 17). -/
def Obligations.ScheduleWordsAreLittleEndian : Prop :=
  (∀ b0 b1 b2 b3 : Byte,
    (le32 b0 b1 b2 b3).toNat = b0.toNat + 2 ^ 8 * b1.toNat + 2 ^ 16 * b2.toNat + 2 ^ 24 * b3.toNat) ∧
  (∀ (s : State) (off : Nat) (j : Fin 16) (b0 b1 b2 b3 : Byte),
    s.memRead (off + 4 * j.val) 4 = [b0, b1, b2, b3] → (loadBlock off s).w[j] = le32 b0 b1 b2 b3) ∧
  le32 0x61 0x62 0x63 0x80 = 0x80636261 ∧ le32 0x80 0 0 0 = 0x00000080 ∧ le32 0x18 0 0 0 = 0x00000018 ∧
  le32 0xFF 0xFF 0xFF 0xFF = 0xFFFFFFFF

/-! ### The round micro-operations -/

/-- R133 to R136: each micro-operation completes inside a `PROCESS`, with the result its rule gives and nothing else
changed. -/
def Obligations.RoundMicroOperationsComplete : Prop :=
  ∀ (j : Fin 16) (s : State) (e : Engine), s.engine = some e →
    (let i := j.val
     let f := (e.b &&& e.c) ||| (~~~e.b &&& e.d)
     let t := sum4 f e.a (krom (BitVec.ofNat 6 i)) s.w[j]
     let n := ([7, 12, 17, 22] : List Nat).getD (i % 4) 0
     exec (.rnd1 j) s =
       .next { s with engine := some { e with a := e.d, d := e.c, c := e.b, b := add32 e.b (rotl32 t n), t := t } }) ∧
    (let i := 16 + j.val
     let f := (e.d &&& e.b) ||| (~~~e.d &&& e.c)
     let t := sum4 f e.a (krom (BitVec.ofNat 6 i)) s.w[Fin.ofNat 16 (5 * i + 1)]
     let n := ([5, 9, 14, 20] : List Nat).getD (i % 4) 0
     exec (.rnd2 j) s =
       .next { s with engine := some { e with a := e.d, d := e.c, c := e.b, b := add32 e.b (rotl32 t n), t := t } }) ∧
    (let i := 32 + j.val
     let f := e.b ^^^ e.c ^^^ e.d
     let t := sum4 f e.a (krom (BitVec.ofNat 6 i)) s.w[Fin.ofNat 16 (3 * i + 5)]
     let n := ([4, 11, 16, 23] : List Nat).getD (i % 4) 0
     exec (.rnd3 j) s =
       .next { s with engine := some { e with a := e.d, d := e.c, c := e.b, b := add32 e.b (rotl32 t n), t := t } }) ∧
    (let i := 48 + j.val
     let f := e.c ^^^ (e.b ||| ~~~e.d)
     let t := sum4 f e.a (krom (BitVec.ofNat 6 i)) s.w[Fin.ofNat 16 (7 * i)]
     let n := ([6, 10, 15, 21] : List Nat).getD (i % 4) 0
     exec (.rnd4 j) s =
       .next { s with engine := some { e with a := e.d, d := e.c, c := e.b, b := add32 e.b (rotl32 t n), t := t } })

/-- R124: the micro-operation of every round index is the generic round step, with the round function of its phase
(R100), its own constant, its message word and its rotation amount. -/
def Obligations.EveryRoundIsTheGenericStep : Prop :=
  ∀ (ri : BitVec 6) (s : State) (e : Engine), s.engine = some e →
    let ph := Fin.ofNat 4 (ri.toNat / 16)
    let f := rfsel ph e.b e.c e.d
    let n := srom ph (Fin.ofNat 4 ri.toNat)
    let t := sum4 f e.a (krom ri) s.w[gidx ri]
    exec (decodeRound ri) s =
      .next { s with engine := some { e with a := e.d, d := e.c, c := e.b, b := add32 e.b (rotl32 t n), t := t } }

/-- Outside a `PROCESS` a micro-operation stops by name: "Micro-operations cannot be issued by the host" (R76); the model's
reading is log entry 10. -/
def Obligations.MicroOperationsNeedAProcess : Prop :=
  ∀ (j : Fin 16) (s : State), s.engine = none →
    exec (.rnd1 j) s = .refused .microOpOutsideProcess ∧ exec (.rnd2 j) s = .refused .microOpOutsideProcess ∧
    exec (.rnd3 j) s = .refused .microOpOutsideProcess ∧ exec (.rnd4 j) s = .refused .microOpOutsideProcess

/-! ### `PROCESS` -/

/-- R121 steps 4 to 9 with R126 to R128: on an `ACTIVE` instance with no fault recorded, `PROCESS off` in range completes;
`H` becomes `COMPRESS(H, MemRead(off, 64))`, `W` the block's schedule or zero, the working registers are gone, and
everything else is unchanged. -/
def Obligations.ProcessCompletesWithCompress : Prop :=
  ∀ (off : Nat) (s : State), s.ready → off + 64 ≤ s.params.bufLen →
    exec (.process off) s =
      .next { s with
        h := compress s.h (s.memRead off 64)
        w := if s.params.autoClean then Vector.replicate 16 0 else schedule (s.memRead off 64)
        engine := none }

/-- R129, R130 and the range check of R56: what `PROCESS` does where it does not run, in the order of the checks. -/
def Obligations.ProcessChecksComeFirst : Prop :=
  ∀ (off : Nat) (s : State),
    (s.fault = true → exec (.process off) s = .next s) ∧
    (s.fault = false → s.params.bufLen < off + 64 →
      exec (.process off) s =
        .next { s with fault := true, fcause := .blockRange, finfo := BitVec.ofNat 32 (0x40000000 + off) }) ∧
    (s.fault = false → off + 64 ≤ s.params.bufLen → s.life = .destroyed →
      exec (.process off) s = .refused .processAfterDestroy)

/-- R128: an in-range `PROCESS` on a ready instance always completes, records no fault, and its result depends on nothing
but `H` and the 64 bytes: not on `W`, `off`, the rest of `BUF` or earlier commands. `W` is the same for one `AUTO_CLEAN`. -/
def Obligations.ProcessDependsOnlyOnHashAndBlock : Prop :=
  ∀ (off₁ off₂ : Nat) (s₁ s₂ : State), s₁.ready → s₂.ready →
    off₁ + 64 ≤ s₁.params.bufLen → off₂ + 64 ≤ s₂.params.bufLen →
    s₁.h = s₂.h → s₁.memRead off₁ 64 = s₂.memRead off₂ 64 →
    ∃ t₁ t₂, exec (.process off₁) s₁ = .next t₁ ∧ exec (.process off₂) s₂ = .next t₂ ∧
      t₁.h = t₂.h ∧ (s₁.params.autoClean = s₂.params.autoClean → t₁.w = t₂.w) ∧ t₁.fault = false ∧ t₂.fault = false

/-- R127: with `AUTO_CLEAN` the schedule is zero after `PROCESS`, without it holds the sixteen words of the block, and `H`
and everything else but the parameter is the same for both values. -/
def Obligations.AutoCleanOnlyClearsSchedule : Prop :=
  ∀ (off : Nat) (s : State), s.ready → off + 64 ≤ s.params.bufLen →
    ∃ t u, exec (.process off) { s with params := { s.params with autoClean := true } } = .next t ∧
      exec (.process off) { s with params := { s.params with autoClean := false } } = .next u ∧
      (∀ j : Fin 16, t.w[j] = 0) ∧
      (∀ j : Fin 16, u.w[j] = le32 (s.bufByte (off + 4 * j.val)) (s.bufByte (off + 4 * j.val + 1))
        (s.bufByte (off + 4 * j.val + 2)) (s.bufByte (off + 4 * j.val + 3))) ∧
      t.h = u.h ∧ t = { u with params := t.params, w := t.w }

/-- The last sentence of R79: with `AUTO_CLEAN = true`, `PROCESS off` and the pseudo-instruction `PROCESS.C off` (`PROCESS off`
then `RCLEAN`) leave the same state. -/
def Obligations.ProcessCleanPseudoIsProcess : Prop :=
  ∀ (off : Nat) (s : State), s.ready → off + 64 ≤ s.params.bufLen → s.params.autoClean = true →
    ∃ t, exec (.process off) s = .next t ∧ exec .rclean t = .next t

/-- The two levels agree (R4, R121, R125, R131): from the state in which the block of `PROCESS off` is loaded, 64 steps of
the machine, one micro-operation each, end in the very outcome of the one atomic command. No reset comes in between. -/
def Obligations.SixtyFourRoundStepsAreOneProcess : Prop :=
  ∀ (off : Nat) (s : State), s.ready → off + 64 ≤ s.params.bufLen → s.moves.head? ≠ some .reset →
    Host.Core.run Sys2Proof.core 64 (loadBlock off s) = exec (.process off) s

/-! ### The adapter's commands -/

/-- R140: `INIT` is accepted in every state, constructs a computation and leaves everything else; twice is once. -/
def Obligations.InitConstructs : Prop :=
  ∀ s : State, ∃ t, exec .init s = .next t ∧
    t = { s with
      h := { a := 0x67452301, b := 0xefcdab89, c := 0x98badcfe, d := 0x10325476 }
      w := Vector.replicate 16 0
      life := .active, fault := false, fcause := .none, finfo := 0 } ∧
    exec .init t = .next t

/-- R141: with no fault recorded `GET` completes in both lifecycle states, delivers `H` on `DOUT` and changes nothing else;
after `DESTROY` it returns four zeros. -/
def Obligations.GetDeliversSnapshot : Prop :=
  ∀ s : State, s.fault = false → exec .get s = .next { s with dout := s.h } ∧
    ∃ t, exec .destroy s = .next t ∧ exec .get t = .next { t with dout := { a := 0, b := 0, c := 0, d := 0 } }

/-- R142: with no fault recorded `SET` completes in both lifecycle states, stores the operands and changes nothing else;
`trunc32` reduces any integer modulo 2^32, and on the 32-bit port it is the identity. -/
def Obligations.SetStoresTruncatedOperands : Prop :=
  (∀ s : State, s.fault = false → exec .set s = .next { s with h := s.din }) ∧
  (∀ v : Int, ((trunc32 v).toNat : Int) = v % 2 ^ 32) ∧
  truncQuad (2 ^ 32 + 5) (-1) (2 ^ 33) (2 ^ 32) = { a := 5, b := 0xFFFFFFFF, c := 0, d := 0 }

/-- R143: with no fault recorded `RCLEAN` completes in both lifecycle states, zeroes `W`, changes nothing else, and is
idempotent. -/
def Obligations.RcleanZeroesSchedule : Prop :=
  ∀ s : State, s.fault = false → ∃ t, exec .rclean s = .next t ∧ (∀ j : Fin 16, t.w[j] = 0) ∧
    t = { s with w := t.w } ∧ exec .rclean t = .next t

/-- R144: `DESTROY` is accepted in every state and zeroes `H`, `W` and every byte of `BUF`; it ends the lifecycle and keeps
the fault record and everything else; a second one changes no register and no byte; and, with no fault recorded, an
in-range `PROCESS` after it is the undefined step while `GET` returns zeros. -/
def Obligations.DestroyZeroises : Prop :=
  ∀ s : State, ∃ t, exec .destroy s = .next t ∧
    t.h = { a := 0, b := 0, c := 0, d := 0 } ∧ (∀ j : Fin 16, t.w[j] = 0) ∧ t.life = .destroyed ∧
    (∀ a, a < s.params.bufLen → t.buf.read a = some 0 ∧ t.bufByte a = 0) ∧
    (∀ a, s.params.bufLen ≤ a → t.buf.read a = s.buf.read a) ∧
    t = { s with h := t.h, w := t.w, life := t.life, buf := t.buf } ∧
    (∃ u, exec .destroy t = .next u ∧ u = { t with buf := u.buf } ∧ ∀ a, u.buf.read a = t.buf.read a) ∧
    (s.fault = false → exec .get t = .next { t with dout := { a := 0, b := 0, c := 0, d := 0 } } ∧
      ∀ off, off + 64 ≤ s.params.bufLen → exec (.process off) t = .refused .processAfterDestroy)

/-- R146: the words a `GET` delivered, put on `DIN` of a later `SET` on any `ACTIVE` instance with no fault recorded, restore
`H`. After that a `PROCESS` over equal bytes of `BUF` gives equal `H` on both; and so does every sequence of blocks, each
host placing them where its own buffer has room, with or without the check of R193. -/
def Obligations.SetOfGetRestores : Prop :=
  ∀ s u : State, s.fault = false → u.ready →
    ∃ g v, exec .get s = .next g ∧ exec .set { u with din := g.dout } = .next v ∧ v.h = s.h ∧
      (∀ off₁ off₂, s.life = .active → off₁ + 64 ≤ s.params.bufLen → off₂ + 64 ≤ v.params.bufLen →
        g.memRead off₁ 64 = v.memRead off₂ 64 →
        ∃ g' v', exec (.process off₁) g = .next g' ∧ exec (.process off₂) v = .next v' ∧ v'.h = g'.h) ∧
      ∀ (c₁ c₂ : Bool) (bs₁ bs₂ : List Batch), s.life = .active → s.engine = none → u.engine = none →
        s.params.wf = true → u.params.wf = true → bs₁.all (Batch.fits s.params) = true →
        bs₂.all (Batch.fits u.params) = true → batchesBlocks bs₁ = batchesBlocks bs₂ →
        ∃ g' v', Host.Core.run Sys2Proof.core (batchesMoves c₁ bs₁).length { g with moves := batchesMoves c₁ bs₁ } = .next g' ∧
          Host.Core.run Sys2Proof.core (batchesMoves c₂ bs₂).length { v with moves := batchesMoves c₂ bs₂ } = .next v' ∧
          v'.h = g'.h

/-- The lifecycle table of R147, with no fault recorded: what each command does to `LIFE`, that `INIT` re-initialises,
that `PROCESS` advances `H`, that after `DESTROY` a `GET` returns zeros unless a `SET` came between, and that reset enters
`ACTIVE`. That `GET`, `SET` and `RCLEAN` remain usable after `DESTROY` "is this spec's reading" of the source (R147, D17). -/
def Obligations.LifecycleFollowsTable : Prop :=
  ∀ s : State, s.fault = false →
    (∃ t, exec .init s = .next t ∧ t.life = .active ∧ t.h = iv ∧ t.w = Vector.replicate 16 0) ∧
    (∃ t, exec .get s = .next t ∧ t.life = s.life) ∧
    (∃ t, exec .set s = .next t ∧ t.life = s.life) ∧
    (∃ t, exec .rclean s = .next t ∧ t.life = s.life) ∧
    (∃ t, exec .destroy s = .next t ∧ t.life = .destroyed ∧
      (∃ g, exec .get t = .next g ∧ g.dout = { a := 0, b := 0, c := 0, d := 0 } ∧ g.life = .destroyed) ∧
      ∃ v g, exec .set t = .next v ∧ exec .get v = .next g ∧ g.dout = s.din ∧ g.life = .destroyed) ∧
    (∀ off, off + 64 ≤ s.params.bufLen →
      (s.life = .active → ∃ t, exec (.process off) s = .next t ∧ t.life = .active ∧ t.h = compress s.h (s.memRead off 64)) ∧
      (s.life = .destroyed → exec (.process off) s = .refused .processAfterDestroy)) ∧
    ∀ rest, s.moves = .reset :: rest → ∃ t, step s = .next t ∧ t.life = .active

/-- R145: the sixteen digest bytes, `A` first, each word least significant byte first. -/
def Obligations.DigestBytesAreLittleEndian : Prop :=
  ∀ q : Quad, (serialize q).length = 16 ∧
    ∀ k m : Fin 4, ∃ b, (serialize q)[4 * k.val + m.val]? = some b ∧
      b.toNat = ((match k with | 0 => q.a | 1 => q.b | 2 => q.c | 3 => q.d).toNat / 2 ^ (8 * m.val)) % 256

/-! ### The exception -/

/-- R161: the two causes, each with its code in `STATUS`, `FAULT` set, and the command word in `FINFO`. -/
def Obligations.FaultCodesAndWords : Prop :=
  (∀ (off : Nat) (s : State), s.fault = false → off < 2 ^ 28 → s.params.bufLen < off + 64 →
    ∃ t, exec (.process off) s = .next t ∧ t.status.getLsbD 1 = true ∧ t.status.extractLsb' 2 2 = 1 ∧
      t.finfo.toNat = 0x40000000 + off) ∧
  ∀ (cw : Word) (din : Quad) (r : IllegalWord) (s : State), s.fault = false → decodeCommand cw = .error r →
    ∃ t, issueCommand cw din s = .next t ∧ t.status.getLsbD 1 = true ∧ t.status.extractLsb' 2 2 = 2 ∧ t.finfo = cw

/-- R166: while a fault is recorded, `SET`, `PROCESS`, `RCLEAN` and every illegal word change nothing, a `GET` changes nothing
but the undefined `DOUT` (`draws` is the model's own index of free values, log entries 6 and 12), `DESTROY` executes and
keeps the record, and `INIT` executes and clears it. That `DIN` holds what the host put there, also after an illegal word,
is the model's reading, log entry 15. -/
def Obligations.RecordedFaultDiscardsCommands : Prop :=
  ∀ s : State, s.fault = true →
    exec .set s = .next s ∧ (∀ off, exec (.process off) s = .next s) ∧ exec .rclean s = .next s ∧
    (∃ q n, exec .get s = .next { s with dout := q, draws := n }) ∧
    (∀ (cw : Word) (din : Quad) (r : IllegalWord), decodeCommand cw = .error r →
      issueCommand cw din s = .next { s with din := din }) ∧
    (∃ t, exec .destroy s = .next t ∧ t.h = { a := 0, b := 0, c := 0, d := 0 } ∧ t.w = Vector.replicate 16 0 ∧
      t.life = .destroyed ∧ (∀ a, a < s.params.bufLen → t.bufByte a = 0) ∧
      t.fault = true ∧ t.fcause = s.fcause ∧ t.finfo = s.finfo) ∧
    ∃ t, exec .init s = .next t ∧ t.h = iv ∧ t.w = Vector.replicate 16 0 ∧ t.life = .active ∧
      t.fault = false ∧ t.fcause = .none ∧ t.finfo = 0

/-- R164: the checks on one command word in their order, first match wins, as the step of the machine when the host
issues `cw`. The model's own in it: the undefined `DOUT` of a discarded `GET` (U4) is a free value under the index `draws`
(log entries 6 and 12), and `DIN` holds the host's words whatever becomes of the command (log entry 15). -/
def Obligations.ChecksOnACommandWord : Prop :=
  ∀ (cw : Word) (din : Quad) (rest : List HostMove) (s : State), s.engine = none → s.moves = .command cw din :: rest →
    let u : State := { s with moves := rest, din := din }
    step s =
      if s.fault = true ∧ cw ≠ 0x10000000 ∧ cw ≠ 0x60000000 then
        .next (if cw = 0x20000000 then u.undefineDout else u)
      else match decodeCommand cw with
        | .error _ => .next { u with fault := true, fcause := .illegalCmd, finfo := cw }
        | .ok (.process off) =>
          if s.params.bufLen < off + 64 then .next { u with fault := true, fcause := .blockRange, finfo := cw }
          else if s.life = .destroyed then .refused .processAfterDestroy
          else exec (.process off) u
        | .ok i => exec i u

/-- R167: the only ways out of the faulted condition are `INIT` and reset, and both are ways out. -/
def Obligations.OnlyInitAndResetClearAFault : Prop :=
  (∀ s t : State, step s = .next t → s.fault = true → t.fault = false →
    (∃ rest, s.moves = .reset :: rest) ∨ (∃ din rest, s.moves = .command 0x10000000 din :: rest)) ∧
  (∀ (s : State) (rest : List HostMove), s.moves = .reset :: rest → ∃ t, step s = .next t ∧ t.fault = false) ∧
  ∀ (s : State) (din : Quad) (rest : List HostMove), s.engine = none → s.moves = .command 0x10000000 din :: rest →
    ∃ t, step s = .next t ∧ t.fault = false

/-- R168: no fault occurs while a fault is recorded, so the first record is never overwritten. -/
def Obligations.FirstFaultRecordIsKept : Prop :=
  ∀ s t : State, step s = .next t → s.fault = true → t.fault = true → t.fcause = s.fcause ∧ t.finfo = s.finfo

/-- R14 and R206: with a host that keeps to its moves every step has a next state, but for the one undefined step of
R129. -/
def Obligations.OnlyTheUndefinedStepStops : Prop :=
  ∀ s : State, s.hostWf = true →
    (∃ t, step s = .next t) ∨
    (step s = .refused .processAfterDestroy ∧ ∃ off din rest, off < 2 ^ 28 ∧
      s.moves = .command (BitVec.ofNat 32 (0x40000000 + off)) din :: rest ∧ undefinedStep off s)

/-! ### Reset and the state -/

/-- R190 with the table of R37: the values the spec gives after reset, for every value of the parameters, in the reset
state and after the reset event from any state, a `PROCESS` under way included. `BUF` holds no written byte. -/
def Obligations.ResetLeavesTheStatedValues : Prop :=
  (∀ p : Params, ∃ t, t = State.resetWith p ∧ t.params = p ∧
    t.h = { a := 0x67452301, b := 0xefcdab89, c := 0x98badcfe, d := 0x10325476 } ∧ (∀ j : Fin 16, t.w[j] = 0) ∧
    t.status = 0x00000001 ∧ t.finfo = 0 ∧ (∀ a, t.buf.read a = none) ∧ t.engine = none) ∧
  ∀ (s : State) (rest : List HostMove), s.moves = .reset :: rest → ∃ t, step s = .next t ∧
    t.params = s.params ∧ t.moves = rest ∧ t.held = s.held ∧
    t.h = { a := 0x67452301, b := 0xefcdab89, c := 0x98badcfe, d := 0x10325476 } ∧ (∀ j : Fin 16, t.w[j] = 0) ∧
    t.status = 0x00000001 ∧ t.finfo = 0 ∧ (∀ a, t.buf.read a = none) ∧ t.engine = none

/-- R191: reset and `INIT` leave the same `H`, `W`, `STATUS` and `FINFO`; `INIT` leaves `BUF` as it was, reset leaves it
unspecified. -/
def Obligations.ResetAndInitLeaveTheSameRegisters : Prop :=
  ∀ (s : State) (rest : List HostMove), s.moves = .reset :: rest →
    ∃ t u, step s = .next t ∧ exec .init s = .next u ∧
      t.h = u.h ∧ t.w = u.w ∧ t.status = u.status ∧ t.finfo = u.finfo ∧
      (∀ a, u.buf.read a = s.buf.read a ∧ u.bufByte a = s.bufByte a) ∧ ∀ a, t.buf.read a = none

/-- `State.Inv` holds after reset with every pair of parameters R6 allows, and so in `State.reset` (log entry 2). -/
def Obligations.ResetMeetsTheInvariant : Prop :=
  (∀ p : Params, p.wf = true → (State.resetWith p).Inv) ∧ State.reset.Inv

/-- Every step keeps `State.Inv`: the parameters in range (R6), `BUF` in form and within its length (R50), the fault record
as R31 and R32 say, and a `PROCESS` under way only on a ready instance (R121). -/
def Obligations.EveryStepKeepsTheInvariant : Prop :=
  ∀ s t : State, s.Inv → step s = .next t → t.Inv

/-- R6: the parameters are configuration, not state: no step changes them. -/
def Obligations.NoStepChangesTheParameters : Prop :=
  ∀ s t : State, step s = .next t → t.params = s.params

/-- The writers of each piece of state (R22, R24, R30, R32, R52, R73; 90_conflicts C1, C2) as the frame of every instruction:
what changes, changes by one of the instructions named, and everything else is as before, every byte of `BUF` included. -/
def Obligations.WritersOfEachPieceOfState : Prop :=
  ∀ (i : Instr) (s t : State), exec i s = .next t →
    (i ∉ [.init, .set, .destroy] → (∀ off, i ≠ .process off) → t.h = s.h) ∧
    (i ∉ [.init, .rclean, .destroy] → (∀ off, i ≠ .process off) → t.w = s.w) ∧
    (i ∉ [.init, .destroy] → t.life = s.life) ∧
    (i ≠ .init → (∀ off, i ≠ .process off) → t.fault = s.fault ∧ t.fcause = s.fcause ∧ t.finfo = s.finfo) ∧
    (isCommand i = true → (∀ off, i ≠ .process off) → t.engine = s.engine) ∧
    (i ≠ .get → t.dout = s.dout ∧ t.draws = s.draws) ∧
    (i ≠ .destroy → ∀ a, t.buf.read a = s.buf.read a ∧ t.bufByte a = s.bufByte a) ∧
    t.params = s.params ∧ t.din = s.din ∧ t.moves = s.moves ∧ t.held = s.held ∧ t.bufDraw = s.bufDraw

/-! ### The host and the step -/

/-- R51: `MemRead` gives the `n` bytes from `addr` in order and changes nothing; `MemWrite` sets exactly the bytes it is
given. -/
def Obligations.MemoryPrimitivesReadAndWrite : Prop :=
  (∀ (s : State) (addr n : Nat), (s.memRead addr n).length = n ∧
    ∀ k, k < n → (s.memRead addr n)[k]? = some (s.bufByte (addr + k))) ∧
  ∀ (s : State) (addr : Nat) (bytes : List Byte),
    (∀ (k : Nat) (h : k < bytes.length), (s.memWrite addr bytes).bufByte (addr + k) = bytes[k]) ∧
    (∀ x, x < addr ∨ addr + bytes.length ≤ x → (s.memWrite addr bytes).bufByte x = s.bufByte x) ∧
    s.memWrite addr bytes = { s with buf := (s.memWrite addr bytes).buf }

/-- The buffer rows of R207 with R60: a host write sets its byte and leaves every other one and all else; a host read
returns the byte and changes nothing of CORE. -/
def Obligations.HostBufferAccesses : Prop :=
  ∀ (s : State) (addr : Nat) (rest : List HostMove), s.engine = none → addr < s.params.bufLen →
    (∀ b, s.moves = .writeBuf addr b :: rest → ∃ t, step s = .next t ∧ t.bufByte addr = b ∧
      (∀ x, x ≠ addr → t.bufByte x = s.bufByte x) ∧ t = { s with buf := t.buf, moves := rest }) ∧
    (s.moves = .readBuf addr :: rest →
      step s = .next { s with moves := rest, held := .bufByte addr (s.bufByte addr) :: s.held })

/-- The row "no move" of R207: a host access at an address `>= BUF_LEN` is no step of the machine; the model's fault for
it is log entry 14. -/
def Obligations.NoBufferAccessBeyondTheEnd : Prop :=
  ∀ (s : State) (addr : Nat) (rest : List HostMove), s.engine = none → s.params.bufLen ≤ addr →
    (∀ b, s.moves = .writeBuf addr b :: rest → step s = .fault .noSuchBufByte) ∧
    (s.moves = .readBuf addr :: rest → step s = .fault .noSuchBufByte)

/-- R30 and the status row of R207: the fields of `STATUS`, its reserved bits zero, and that the host's reads of the
outputs return them and change nothing of CORE. -/
def Obligations.HostReadsTheOutputs : Prop :=
  (∀ s : State, s.status.getLsbD 0 = decide (s.life = .active) ∧ s.status.getLsbD 1 = s.fault ∧
    (s.status.extractLsb' 2 2).toNat = (match s.fcause with | .none => 0 | .blockRange => 1 | .illegalCmd => 2) ∧
    s.status.extractLsb' 4 28 = 0) ∧
  ∀ (s : State) (rest : List HostMove), s.engine = none →
    (s.moves = .readStatus :: rest →
      step s = .next { s with moves := rest, held := .statusWords s.status s.finfo :: s.held }) ∧
    (s.moves = .readDout :: rest → step s = .next { s with moves := rest, held := .doutWords s.dout :: s.held })

/-- A step runs the decoded command: when the host issues a word that decodes to `i`, the step is `exec i` with the
operands on `DIN` and that move made (R13, R33, R164). -/
def Obligations.StepRunsTheIssuedCommand : Prop :=
  ∀ (s : State) (cw : Word) (din : Quad) (rest : List HostMove) (i : Instr), s.engine = none →
    s.moves = .command cw din :: rest → decodeCommand cw = .ok i →
    step s = exec i { s with moves := rest, din := din }

/-- A step runs the round under way: with a `PROCESS` under way and no reset next, the step is `exec` of the micro-operation
that `RI` selects, and then `RI <- RI + 1`, or after the round with `RI = 63` the feed-forward, the clearing and the end
(R27, R121, R125 to R127). -/
def Obligations.StepRunsTheRoundUnderWay : Prop :=
  ∀ (s t : State) (e e' : Engine), s.engine = some e → s.moves.head? ≠ some .reset →
    exec (decodeRound e.ri) s = .next t → t.engine = some e' → e'.ri = e.ri →
    step s =
      if e.ri = 63 then
        .next { t with
          h := { a := add32 t.h.a e'.a, b := add32 t.h.b e'.b, c := add32 t.h.c e'.c, d := add32 t.h.d e'.d }
          w := if t.params.autoClean then Vector.replicate 16 0 else t.w
          engine := none }
      else .next { t with engine := some { e' with ri := e.ri + 1 } }

/-- The bits of a legal command word placed by `withFetchWord` are what the next step runs, on the state otherwise as it
was with no `PROCESS` under way (log entries 3 and 18). -/
def Obligations.StepRunsThePlacedWord : Prop :=
  ∀ (s : State) (w : Nat) (i : Instr), w < 2 ^ 32 → decodeTableWord 32 w = some i →
    step (s.withFetchWord 32 w) = exec i { s with engine := none }

/-- With no move left and no `PROCESS` under way the state persists (R206; log entry 4). -/
def Obligations.WithoutAMoveTheStatePersists : Prop :=
  ∀ s : State, s.engine = none → s.moves = [] → step s = .next s

/-! ### Whole messages -/

/-- R194: the padded message is the message, `0x80`, the least number of zeros that makes the length a multiple of 64, and
the bit length modulo 2^64 in eight bytes, least significant first. The number of zeros is general knowledge by the
rule's own words (log entry 17). -/
def Obligations.PaddingFillsWholeBlocks : Prop :=
  ∀ m : List Byte, ∃ (z : Nat) (suffix : List Byte),
    pad m = m ++ [0x80] ++ List.replicate z 0 ++ suffix ∧ suffix.length = 8 ∧
    (m.length + 1 + z + 8) % 64 = 0 ∧ (∀ z', (m.length + 1 + z' + 8) % 64 = 0 → z ≤ z') ∧
    ∀ k, k < 8 → ∃ b, suffix[k]? = some b ∧ b.toNat = (8 * m.length % 2 ^ 64) / 2 ^ (8 * k) % 256

/-- R137 with R193: from a ready instance between commands, the moves of any blocks, placed in `BUF` one at a time or several
at once, with or without the check of `STATUS.FAULT`, run to their end and go well; `H` is `COMPRESS` of the blocks in order,
every check passes, `W` is clean after the last `RCLEAN`, and the host's further moves are still to come. -/
def Obligations.BlocksAdvanceTheDigestState : Prop :=
  ∀ (check : Bool) (bs : List Batch) (rest : List HostMove) (s : State), s.ready → s.engine = none → s.params.wf = true →
    bs.all (Batch.fits s.params) = true → s.moves = batchesMoves check bs ++ rest →
    ∃ (t : State) (checks : List Reading), Host.Core.run Sys2Proof.core (batchesMoves check bs).length s = .next t ∧
      goesWell (batchesMoves check bs).length s = true ∧ t.ready ∧ t.engine = none ∧ t.params = s.params ∧ t.moves = rest ∧
      t.h = compressAll s.h (batchesBlocks bs) ∧ (batchesBlocks bs ≠ [] → ∀ j : Fin 16, t.w[j] = 0) ∧
      t.held = checks ++ s.held ∧ checks.length = (if check then (batchesBlocks bs).length else 0) ∧
      ∀ r ∈ checks, r = .statusWords s.status s.finfo ∧ r.checkPassed = true

/-- R138 and R206: for every message, every plan by which its host carries the computation out (begun by `INIT`, by reset, or
on a constructed instance; with or without the checks of R193; its blocks placed in `BUF` one by one, several at once or in any
mixture) and every start state that admits it, a `PROCESS` under way before a reset included, the run reaches its end and has
gone well. What the host reads last is `DOUT`, which serialises to the MD5 digest, and before it nothing but passed checks; and
the instance is zeroised, `H`, `W` and `BUF`. The host's functions are those of R145, R193, R194 and R195 (log entry 25). -/
def Obligations.DigestRunYieldsMd5 : Prop :=
  ∀ (m : List Byte) (pl : DigestPlan) (s : State), s.params.wf = true → pl.wf s.params m = true → pl.start.admits s →
    s.moves = pl.moves →
    ∃ (t : State) (q : Quad) (checks : List Reading), Host.Core.run Sys2Proof.core s.moves.length s = .next t ∧
      goesWell s.moves.length s = true ∧ t.held = .doutWords q :: (checks ++ s.held) ∧
      (∀ r ∈ checks, r.checkPassed = true) ∧ serialize q = md5 m ∧
      t.h = { a := 0, b := 0, c := 0, d := 0 } ∧ (∀ j : Fin 16, t.w[j] = 0) ∧ t.life = .destroyed ∧
      (∀ a, a < s.params.bufLen → t.bufByte a = 0) ∧ t.moves = []

/-- The two layouts R193 names are plans of the kind DigestRunYieldsMd5 speaks of: each block in turn at one offset, wherever 64
bytes fit, and all blocks of the message at once, where the buffer has room for them. -/
def Obligations.BothLayoutsAreDigestPlans : Prop :=
  ∀ (start : ComputationStart) (check : Bool) (m : List Byte) (off : Nat) (p : Params),
    (off + 64 ≤ p.bufLen →
      ({ start := start, check := check, batches := oneByOne off (messageBlocks m) } : DigestPlan).wf p m = true) ∧
    (off + (pad m).length ≤ p.bufLen →
      ({ start := start, check := check, batches := allAtOnce off (messageBlocks m) } : DigestPlan).wf p m = true)
end

