-- ==== Sys2Proof/Laws/State.lean ====
section
/-! SUPPORT. One lemma per field per update of State, so that no later proof unfolds a record update. -/

namespace Sys2Proof.Machine

/-- The state with the registers a block works on replaced: all that rounds and the end of a block can change. -/
def State.withBlock (s : State) (h : Quad) (w : Vector Word 16) (e : Option Engine) : State :=
  { s with h := h, w := w, engine := e }

/-! ### `memWrite`: `MemWrite` (R51) -/

@[simp] theorem State.memWrite_params (s : State) (addr : Nat) (bs : List Byte) : (s.memWrite addr bs).params = s.params := rfl
@[simp] theorem State.memWrite_h (s : State) (addr : Nat) (bs : List Byte) : (s.memWrite addr bs).h = s.h := rfl
@[simp] theorem State.memWrite_w (s : State) (addr : Nat) (bs : List Byte) : (s.memWrite addr bs).w = s.w := rfl
@[simp] theorem State.memWrite_engine (s : State) (addr : Nat) (bs : List Byte) : (s.memWrite addr bs).engine = s.engine := rfl
@[simp] theorem State.memWrite_life (s : State) (addr : Nat) (bs : List Byte) : (s.memWrite addr bs).life = s.life := rfl
@[simp] theorem State.memWrite_fault (s : State) (addr : Nat) (bs : List Byte) : (s.memWrite addr bs).fault = s.fault := rfl
@[simp] theorem State.memWrite_fcause (s : State) (addr : Nat) (bs : List Byte) : (s.memWrite addr bs).fcause = s.fcause := rfl
@[simp] theorem State.memWrite_finfo (s : State) (addr : Nat) (bs : List Byte) : (s.memWrite addr bs).finfo = s.finfo := rfl
@[simp] theorem State.memWrite_buf (s : State) (addr : Nat) (bs : List Byte) : (s.memWrite addr bs).buf = s.buf.writeBytes addr bs := rfl
@[simp] theorem State.memWrite_din (s : State) (addr : Nat) (bs : List Byte) : (s.memWrite addr bs).din = s.din := rfl
@[simp] theorem State.memWrite_dout (s : State) (addr : Nat) (bs : List Byte) : (s.memWrite addr bs).dout = s.dout := rfl
@[simp] theorem State.memWrite_moves (s : State) (addr : Nat) (bs : List Byte) : (s.memWrite addr bs).moves = s.moves := rfl
@[simp] theorem State.memWrite_held (s : State) (addr : Nat) (bs : List Byte) : (s.memWrite addr bs).held = s.held := rfl
@[simp] theorem State.memWrite_draws (s : State) (addr : Nat) (bs : List Byte) : (s.memWrite addr bs).draws = s.draws := rfl
@[simp] theorem State.memWrite_bufDraw (s : State) (addr : Nat) (bs : List Byte) : (s.memWrite addr bs).bufDraw = s.bufDraw := rfl

/-! ### `zeroBuf`: the zero fill of `BUF` (R144) -/

@[simp] theorem State.zeroBuf_params (s : State) : (s.zeroBuf).params = s.params := rfl
@[simp] theorem State.zeroBuf_h (s : State) : (s.zeroBuf).h = s.h := rfl
@[simp] theorem State.zeroBuf_w (s : State) : (s.zeroBuf).w = s.w := rfl
@[simp] theorem State.zeroBuf_engine (s : State) : (s.zeroBuf).engine = s.engine := rfl
@[simp] theorem State.zeroBuf_life (s : State) : (s.zeroBuf).life = s.life := rfl
@[simp] theorem State.zeroBuf_fault (s : State) : (s.zeroBuf).fault = s.fault := rfl
@[simp] theorem State.zeroBuf_fcause (s : State) : (s.zeroBuf).fcause = s.fcause := rfl
@[simp] theorem State.zeroBuf_finfo (s : State) : (s.zeroBuf).finfo = s.finfo := rfl
@[simp] theorem State.zeroBuf_buf (s : State) : (s.zeroBuf).buf = s.buf.writeBytes 0 (List.replicate s.params.bufLen 0) := rfl
@[simp] theorem State.zeroBuf_din (s : State) : (s.zeroBuf).din = s.din := rfl
@[simp] theorem State.zeroBuf_dout (s : State) : (s.zeroBuf).dout = s.dout := rfl
@[simp] theorem State.zeroBuf_moves (s : State) : (s.zeroBuf).moves = s.moves := rfl
@[simp] theorem State.zeroBuf_held (s : State) : (s.zeroBuf).held = s.held := rfl
@[simp] theorem State.zeroBuf_draws (s : State) : (s.zeroBuf).draws = s.draws := rfl
@[simp] theorem State.zeroBuf_bufDraw (s : State) : (s.zeroBuf).bufDraw = s.bufDraw := rfl

/-! ### `clearSchedule`: the zero fill of `W` (R143) -/

@[simp] theorem State.clearSchedule_params (s : State) : (s.clearSchedule).params = s.params := rfl
@[simp] theorem State.clearSchedule_h (s : State) : (s.clearSchedule).h = s.h := rfl
@[simp] theorem State.clearSchedule_w (s : State) : (s.clearSchedule).w = zeroSchedule := rfl
@[simp] theorem State.clearSchedule_engine (s : State) : (s.clearSchedule).engine = s.engine := rfl
@[simp] theorem State.clearSchedule_life (s : State) : (s.clearSchedule).life = s.life := rfl
@[simp] theorem State.clearSchedule_fault (s : State) : (s.clearSchedule).fault = s.fault := rfl
@[simp] theorem State.clearSchedule_fcause (s : State) : (s.clearSchedule).fcause = s.fcause := rfl
@[simp] theorem State.clearSchedule_finfo (s : State) : (s.clearSchedule).finfo = s.finfo := rfl
@[simp] theorem State.clearSchedule_buf (s : State) : (s.clearSchedule).buf = s.buf := rfl
@[simp] theorem State.clearSchedule_din (s : State) : (s.clearSchedule).din = s.din := rfl
@[simp] theorem State.clearSchedule_dout (s : State) : (s.clearSchedule).dout = s.dout := rfl
@[simp] theorem State.clearSchedule_moves (s : State) : (s.clearSchedule).moves = s.moves := rfl
@[simp] theorem State.clearSchedule_held (s : State) : (s.clearSchedule).held = s.held := rfl
@[simp] theorem State.clearSchedule_draws (s : State) : (s.clearSchedule).draws = s.draws := rfl
@[simp] theorem State.clearSchedule_bufDraw (s : State) : (s.clearSchedule).bufDraw = s.bufDraw := rfl

/-! ### `construct`: construction (R140) -/

@[simp] theorem State.construct_params (s : State) : (s.construct).params = s.params := rfl
@[simp] theorem State.construct_h (s : State) : (s.construct).h = iv := rfl
@[simp] theorem State.construct_w (s : State) : (s.construct).w = zeroSchedule := rfl
@[simp] theorem State.construct_engine (s : State) : (s.construct).engine = s.engine := rfl
@[simp] theorem State.construct_life (s : State) : (s.construct).life = .active := rfl
@[simp] theorem State.construct_fault (s : State) : (s.construct).fault = false := rfl
@[simp] theorem State.construct_fcause (s : State) : (s.construct).fcause = .none := rfl
@[simp] theorem State.construct_finfo (s : State) : (s.construct).finfo = 0 := rfl
@[simp] theorem State.construct_buf (s : State) : (s.construct).buf = s.buf := rfl
@[simp] theorem State.construct_din (s : State) : (s.construct).din = s.din := rfl
@[simp] theorem State.construct_dout (s : State) : (s.construct).dout = s.dout := rfl
@[simp] theorem State.construct_moves (s : State) : (s.construct).moves = s.moves := rfl
@[simp] theorem State.construct_held (s : State) : (s.construct).held = s.held := rfl
@[simp] theorem State.construct_draws (s : State) : (s.construct).draws = s.draws := rfl
@[simp] theorem State.construct_bufDraw (s : State) : (s.construct).bufDraw = s.bufDraw := rfl

/-! ### `undefineDout`: an undefined `DOUT` (R166, U4) -/

@[simp] theorem State.undefineDout_params (s : State) : (s.undefineDout).params = s.params := rfl
@[simp] theorem State.undefineDout_h (s : State) : (s.undefineDout).h = s.h := rfl
@[simp] theorem State.undefineDout_w (s : State) : (s.undefineDout).w = s.w := rfl
@[simp] theorem State.undefineDout_engine (s : State) : (s.undefineDout).engine = s.engine := rfl
@[simp] theorem State.undefineDout_life (s : State) : (s.undefineDout).life = s.life := rfl
@[simp] theorem State.undefineDout_fault (s : State) : (s.undefineDout).fault = s.fault := rfl
@[simp] theorem State.undefineDout_fcause (s : State) : (s.undefineDout).fcause = s.fcause := rfl
@[simp] theorem State.undefineDout_finfo (s : State) : (s.undefineDout).finfo = s.finfo := rfl
@[simp] theorem State.undefineDout_buf (s : State) : (s.undefineDout).buf = s.buf := rfl
@[simp] theorem State.undefineDout_din (s : State) : (s.undefineDout).din = s.din := rfl
@[simp] theorem State.undefineDout_dout (s : State) : (s.undefineDout).dout = undefinedDout s.draws := rfl
@[simp] theorem State.undefineDout_moves (s : State) : (s.undefineDout).moves = s.moves := rfl
@[simp] theorem State.undefineDout_held (s : State) : (s.undefineDout).held = s.held := rfl
@[simp] theorem State.undefineDout_draws (s : State) : (s.undefineDout).draws = s.draws + 1 := rfl
@[simp] theorem State.undefineDout_bufDraw (s : State) : (s.undefineDout).bufDraw = s.bufDraw := rfl

/-! ### `raise`: fault entry (R165) -/

@[simp] theorem raise_params (cause : FCause) (cw : Word) (s : State) : (raise cause cw s).params = s.params := rfl
@[simp] theorem raise_h (cause : FCause) (cw : Word) (s : State) : (raise cause cw s).h = s.h := rfl
@[simp] theorem raise_w (cause : FCause) (cw : Word) (s : State) : (raise cause cw s).w = s.w := rfl
@[simp] theorem raise_engine (cause : FCause) (cw : Word) (s : State) : (raise cause cw s).engine = s.engine := rfl
@[simp] theorem raise_life (cause : FCause) (cw : Word) (s : State) : (raise cause cw s).life = s.life := rfl
@[simp] theorem raise_fault (cause : FCause) (cw : Word) (s : State) : (raise cause cw s).fault = true := rfl
@[simp] theorem raise_fcause (cause : FCause) (cw : Word) (s : State) : (raise cause cw s).fcause = cause := rfl
@[simp] theorem raise_finfo (cause : FCause) (cw : Word) (s : State) : (raise cause cw s).finfo = cw := rfl
@[simp] theorem raise_buf (cause : FCause) (cw : Word) (s : State) : (raise cause cw s).buf = s.buf := rfl
@[simp] theorem raise_din (cause : FCause) (cw : Word) (s : State) : (raise cause cw s).din = s.din := rfl
@[simp] theorem raise_dout (cause : FCause) (cw : Word) (s : State) : (raise cause cw s).dout = s.dout := rfl
@[simp] theorem raise_moves (cause : FCause) (cw : Word) (s : State) : (raise cause cw s).moves = s.moves := rfl
@[simp] theorem raise_held (cause : FCause) (cw : Word) (s : State) : (raise cause cw s).held = s.held := rfl
@[simp] theorem raise_draws (cause : FCause) (cw : Word) (s : State) : (raise cause cw s).draws = s.draws := rfl
@[simp] theorem raise_bufDraw (cause : FCause) (cw : Word) (s : State) : (raise cause cw s).bufDraw = s.bufDraw := rfl

/-! ### `resetEvent`: the reset event (R190) -/

@[simp] theorem resetEvent_params (s : State) : (resetEvent s).params = s.params := rfl
@[simp] theorem resetEvent_h (s : State) : (resetEvent s).h = iv := rfl
@[simp] theorem resetEvent_w (s : State) : (resetEvent s).w = zeroSchedule := rfl
@[simp] theorem resetEvent_engine (s : State) : (resetEvent s).engine = none := rfl
@[simp] theorem resetEvent_life (s : State) : (resetEvent s).life = .active := rfl
@[simp] theorem resetEvent_fault (s : State) : (resetEvent s).fault = false := rfl
@[simp] theorem resetEvent_fcause (s : State) : (resetEvent s).fcause = .none := rfl
@[simp] theorem resetEvent_finfo (s : State) : (resetEvent s).finfo = 0 := rfl
@[simp] theorem resetEvent_buf (s : State) : (resetEvent s).buf = [] := rfl
@[simp] theorem resetEvent_din (s : State) : (resetEvent s).din = s.din := rfl
@[simp] theorem resetEvent_dout (s : State) : (resetEvent s).dout = undefinedDout s.draws := rfl
@[simp] theorem resetEvent_moves (s : State) : (resetEvent s).moves = s.moves := rfl
@[simp] theorem resetEvent_held (s : State) : (resetEvent s).held = s.held := rfl
@[simp] theorem resetEvent_draws (s : State) : (resetEvent s).draws = s.draws + 1 := rfl
@[simp] theorem resetEvent_bufDraw (s : State) : (resetEvent s).bufDraw = s.draws := rfl

/-! ### `loadBlock`: the load of a block (R121 steps 4 to 6) -/

@[simp] theorem loadBlock_params (off : Nat) (s : State) : (loadBlock off s).params = s.params := rfl
@[simp] theorem loadBlock_h (off : Nat) (s : State) : (loadBlock off s).h = s.h := rfl
@[simp] theorem loadBlock_w (off : Nat) (s : State) : (loadBlock off s).w = scheduleAt s off := rfl
@[simp] theorem loadBlock_engine (off : Nat) (s : State) : (loadBlock off s).engine = some (startEngine s) := rfl
@[simp] theorem loadBlock_life (off : Nat) (s : State) : (loadBlock off s).life = s.life := rfl
@[simp] theorem loadBlock_fault (off : Nat) (s : State) : (loadBlock off s).fault = s.fault := rfl
@[simp] theorem loadBlock_fcause (off : Nat) (s : State) : (loadBlock off s).fcause = s.fcause := rfl
@[simp] theorem loadBlock_finfo (off : Nat) (s : State) : (loadBlock off s).finfo = s.finfo := rfl
@[simp] theorem loadBlock_buf (off : Nat) (s : State) : (loadBlock off s).buf = s.buf := rfl
@[simp] theorem loadBlock_din (off : Nat) (s : State) : (loadBlock off s).din = s.din := rfl
@[simp] theorem loadBlock_dout (off : Nat) (s : State) : (loadBlock off s).dout = s.dout := rfl
@[simp] theorem loadBlock_moves (off : Nat) (s : State) : (loadBlock off s).moves = s.moves := rfl
@[simp] theorem loadBlock_held (off : Nat) (s : State) : (loadBlock off s).held = s.held := rfl
@[simp] theorem loadBlock_draws (off : Nat) (s : State) : (loadBlock off s).draws = s.draws := rfl
@[simp] theorem loadBlock_bufDraw (off : Nat) (s : State) : (loadBlock off s).bufDraw = s.bufDraw := rfl

/-! ### `finishBlock`: the end of a block (R121 steps 8, 9) -/

@[simp] theorem finishBlock_params (e : Engine) (s : State) : (finishBlock e s).params = s.params := rfl
@[simp] theorem finishBlock_h (e : Engine) (s : State) : (finishBlock e s).h = feedForward s.h e := rfl
@[simp] theorem finishBlock_w (e : Engine) (s : State) : (finishBlock e s).w = if s.params.autoClean then zeroSchedule else s.w := rfl
@[simp] theorem finishBlock_engine (e : Engine) (s : State) : (finishBlock e s).engine = none := rfl
@[simp] theorem finishBlock_life (e : Engine) (s : State) : (finishBlock e s).life = s.life := rfl
@[simp] theorem finishBlock_fault (e : Engine) (s : State) : (finishBlock e s).fault = s.fault := rfl
@[simp] theorem finishBlock_fcause (e : Engine) (s : State) : (finishBlock e s).fcause = s.fcause := rfl
@[simp] theorem finishBlock_finfo (e : Engine) (s : State) : (finishBlock e s).finfo = s.finfo := rfl
@[simp] theorem finishBlock_buf (e : Engine) (s : State) : (finishBlock e s).buf = s.buf := rfl
@[simp] theorem finishBlock_din (e : Engine) (s : State) : (finishBlock e s).din = s.din := rfl
@[simp] theorem finishBlock_dout (e : Engine) (s : State) : (finishBlock e s).dout = s.dout := rfl
@[simp] theorem finishBlock_moves (e : Engine) (s : State) : (finishBlock e s).moves = s.moves := rfl
@[simp] theorem finishBlock_held (e : Engine) (s : State) : (finishBlock e s).held = s.held := rfl
@[simp] theorem finishBlock_draws (e : Engine) (s : State) : (finishBlock e s).draws = s.draws := rfl
@[simp] theorem finishBlock_bufDraw (e : Engine) (s : State) : (finishBlock e s).bufDraw = s.bufDraw := rfl

/-! ### `withBlock`: the registers a block works on (R25, R126, R127) -/

@[simp] theorem State.withBlock_params (s : State) (h : Quad) (w : Vector Word 16) (e : Option Engine) : (s.withBlock h w e).params = s.params := rfl
@[simp] theorem State.withBlock_h (s : State) (h : Quad) (w : Vector Word 16) (e : Option Engine) : (s.withBlock h w e).h = h := rfl
@[simp] theorem State.withBlock_w (s : State) (h : Quad) (w : Vector Word 16) (e : Option Engine) : (s.withBlock h w e).w = w := rfl
@[simp] theorem State.withBlock_engine (s : State) (h : Quad) (w : Vector Word 16) (e : Option Engine) : (s.withBlock h w e).engine = e := rfl
@[simp] theorem State.withBlock_life (s : State) (h : Quad) (w : Vector Word 16) (e : Option Engine) : (s.withBlock h w e).life = s.life := rfl
@[simp] theorem State.withBlock_fault (s : State) (h : Quad) (w : Vector Word 16) (e : Option Engine) : (s.withBlock h w e).fault = s.fault := rfl
@[simp] theorem State.withBlock_fcause (s : State) (h : Quad) (w : Vector Word 16) (e : Option Engine) : (s.withBlock h w e).fcause = s.fcause := rfl
@[simp] theorem State.withBlock_finfo (s : State) (h : Quad) (w : Vector Word 16) (e : Option Engine) : (s.withBlock h w e).finfo = s.finfo := rfl
@[simp] theorem State.withBlock_buf (s : State) (h : Quad) (w : Vector Word 16) (e : Option Engine) : (s.withBlock h w e).buf = s.buf := rfl
@[simp] theorem State.withBlock_din (s : State) (h : Quad) (w : Vector Word 16) (e : Option Engine) : (s.withBlock h w e).din = s.din := rfl
@[simp] theorem State.withBlock_dout (s : State) (h : Quad) (w : Vector Word 16) (e : Option Engine) : (s.withBlock h w e).dout = s.dout := rfl
@[simp] theorem State.withBlock_moves (s : State) (h : Quad) (w : Vector Word 16) (e : Option Engine) : (s.withBlock h w e).moves = s.moves := rfl
@[simp] theorem State.withBlock_held (s : State) (h : Quad) (w : Vector Word 16) (e : Option Engine) : (s.withBlock h w e).held = s.held := rfl
@[simp] theorem State.withBlock_draws (s : State) (h : Quad) (w : Vector Word 16) (e : Option Engine) : (s.withBlock h w e).draws = s.draws := rfl
@[simp] theorem State.withBlock_bufDraw (s : State) (h : Quad) (w : Vector Word 16) (e : Option Engine) : (s.withBlock h w e).bufDraw = s.bufDraw := rfl

/-! ### `hold`: what the host gets back (R206) -/

@[simp] theorem State.hold_params (s : State) (r : Reading) : (s.hold r).params = s.params := rfl
@[simp] theorem State.hold_h (s : State) (r : Reading) : (s.hold r).h = s.h := rfl
@[simp] theorem State.hold_w (s : State) (r : Reading) : (s.hold r).w = s.w := rfl
@[simp] theorem State.hold_engine (s : State) (r : Reading) : (s.hold r).engine = s.engine := rfl
@[simp] theorem State.hold_life (s : State) (r : Reading) : (s.hold r).life = s.life := rfl
@[simp] theorem State.hold_fault (s : State) (r : Reading) : (s.hold r).fault = s.fault := rfl
@[simp] theorem State.hold_fcause (s : State) (r : Reading) : (s.hold r).fcause = s.fcause := rfl
@[simp] theorem State.hold_finfo (s : State) (r : Reading) : (s.hold r).finfo = s.finfo := rfl
@[simp] theorem State.hold_buf (s : State) (r : Reading) : (s.hold r).buf = s.buf := rfl
@[simp] theorem State.hold_din (s : State) (r : Reading) : (s.hold r).din = s.din := rfl
@[simp] theorem State.hold_dout (s : State) (r : Reading) : (s.hold r).dout = s.dout := rfl
@[simp] theorem State.hold_moves (s : State) (r : Reading) : (s.hold r).moves = s.moves := rfl
@[simp] theorem State.hold_held (s : State) (r : Reading) : (s.hold r).held = r :: s.held := rfl
@[simp] theorem State.hold_draws (s : State) (r : Reading) : (s.hold r).draws = s.draws := rfl
@[simp] theorem State.hold_bufDraw (s : State) (r : Reading) : (s.hold r).bufDraw = s.bufDraw := rfl

/-! ### `resetWith`: the state after reset (R37, R190) -/

@[simp] theorem State.resetWith_params (p : Params) : (State.resetWith p).params = p := rfl
@[simp] theorem State.resetWith_h (p : Params) : (State.resetWith p).h = iv := rfl
@[simp] theorem State.resetWith_w (p : Params) : (State.resetWith p).w = zeroSchedule := rfl
@[simp] theorem State.resetWith_engine (p : Params) : (State.resetWith p).engine = none := rfl
@[simp] theorem State.resetWith_life (p : Params) : (State.resetWith p).life = .active := rfl
@[simp] theorem State.resetWith_fault (p : Params) : (State.resetWith p).fault = false := rfl
@[simp] theorem State.resetWith_fcause (p : Params) : (State.resetWith p).fcause = .none := rfl
@[simp] theorem State.resetWith_finfo (p : Params) : (State.resetWith p).finfo = 0 := rfl
@[simp] theorem State.resetWith_buf (p : Params) : (State.resetWith p).buf = [] := rfl
@[simp] theorem State.resetWith_din (p : Params) : (State.resetWith p).din = zeroQuad := rfl
@[simp] theorem State.resetWith_dout (p : Params) : (State.resetWith p).dout = undefinedDout 0 := rfl
@[simp] theorem State.resetWith_moves (p : Params) : (State.resetWith p).moves = [] := rfl
@[simp] theorem State.resetWith_held (p : Params) : (State.resetWith p).held = [] := rfl
@[simp] theorem State.resetWith_draws (p : Params) : (State.resetWith p).draws = 1 := rfl
@[simp] theorem State.resetWith_bufDraw (p : Params) : (State.resetWith p).bufDraw = 0 := rfl

end Sys2Proof.Machine
end

