-- ==== Sys2Proof/Laws/Memory.lean ====
section
/-! SUPPORT. The laws of `BUF`: a read after a write, what a write leaves alone, and that every memory operation keeps the
form `Memory.wf` (20_memory R51, R54, R60). -/

namespace Sys2Proof.Machine

/-! ### Reads and writes -/

@[simp] theorem Memory.read_nil (a : Nat) : Memory.read [] a = none := rfl

/-- A read at the written address gives the byte, at any other what stood there. -/
theorem Memory.read_write (m : Memory) (a : Nat) (b : Byte) (x : Nat) :
    (m.write a b).read x = if x = a then some b else m.read x := by
  induction m with
  | nil => simp [Memory.write, Memory.read, eq_comm]
  | cons c rest ih =>
    obtain ⟨y, v⟩ := c
    simp only [Memory.write]
    split
    · simp [Memory.read, eq_comm]
    · split
      · subst_vars
        by_cases hx : x = y
        · simp [Memory.read, hx]
        · simp [Memory.read, hx, Ne.symm hx]
      · simp only [Memory.read]
        rw [ih]
        by_cases hx : y = x
        · subst hx
          have : y ≠ a := by omega
          simp [this]
        · simp [hx]

/-- `MemWrite`: an address inside the written range reads as its byte, any other as before (R51). -/
theorem Memory.read_writeBytes (bs : List Byte) (m : Memory) (a x : Nat) :
    (m.writeBytes a bs).read x = if h : a ≤ x ∧ x < a + bs.length then some (bs[x - a]'(by omega)) else m.read x := by
  induction bs generalizing m a with
  | nil =>
    simp [Memory.writeBytes]
  | cons b rest ih =>
    simp only [Memory.writeBytes, ih, Memory.read_write, List.length_cons]
    by_cases h1 : a + 1 ≤ x ∧ x < a + 1 + rest.length
    · have h2 : a ≤ x ∧ x < a + (rest.length + 1) := by omega
      have h3 : x - a = (x - (a + 1)) + 1 := by omega
      simp [h1, h2, h3]
    · by_cases h2 : x = a
      · subst h2
        simp
      · have h3 : ¬(a ≤ x ∧ x < a + (rest.length + 1)) := by omega
        rw [dif_neg h1, dif_neg h3, if_neg h2]

/-! ### The form -/

/-- Every address of a memory in form lies at or above its first. -/
theorem Memory.wf_head_lt {c : Host.Cell} {rest : Memory} (h : Memory.wf (c :: rest) = true) :
    ∀ d ∈ rest, c.1 < d.1 := by
  induction rest generalizing c with
  | nil => simp
  | cons d rest ih =>
    simp only [Memory.wf, Bool.and_eq_true, decide_eq_true_eq] at h
    intro e he
    rcases List.mem_cons.mp he with rfl | he
    · exact h.1
    · exact Nat.lt_trans h.1 (ih h.2 e he)

/-- The tail of a memory in form is in form. -/
theorem Memory.wf_tail {c : Host.Cell} {rest : Memory} (h : Memory.wf (c :: rest) = true) : Memory.wf rest = true := by
  cases rest with
  | nil => rfl
  | cons d rest =>
    simp only [Memory.wf, Bool.and_eq_true] at h
    exact h.2

/-- A cell below everything in a memory in form may stand in front of it. -/
theorem Memory.wf_cons {c : Host.Cell} {rest : Memory} (hr : Memory.wf rest = true) (hc : ∀ d ∈ rest, c.1 < d.1) :
    Memory.wf (c :: rest) = true := by
  cases rest with
  | nil => rfl
  | cons d rest =>
    simp only [Memory.wf, Bool.and_eq_true, decide_eq_true_eq]
    exact ⟨hc d (List.mem_cons_self ..), hr⟩

/-- The cells of a memory after a write are its old cells and the written one. -/
theorem Memory.mem_write {m : Memory} {a : Nat} {b : Byte} {c : Host.Cell} (h : c ∈ m.write a b) :
    c = (a, b) ∨ c ∈ m := by
  induction m with
  | nil => exact .inl (by simpa [Memory.write] using h)
  | cons d rest ih =>
    obtain ⟨y, v⟩ := d
    simp only [Memory.write] at h
    split at h
    · rcases List.mem_cons.mp h with h | h
      · exact .inl h
      · exact .inr h
    · split at h
      · rcases List.mem_cons.mp h with h | h
        · exact .inl h
        · exact .inr (List.mem_cons_of_mem _ h)
      · rcases List.mem_cons.mp h with h | h
        · exact .inr (h ▸ List.mem_cons_self ..)
        · exact (ih h).imp_right (List.mem_cons_of_mem _)

/-- A write keeps the form. -/
theorem Memory.write_wf {m : Memory} (a : Nat) (b : Byte) (h : m.wf = true) : (m.write a b).wf = true := by
  induction m with
  | nil => rfl
  | cons d rest ih =>
    obtain ⟨y, v⟩ := d
    have hlt := Memory.wf_head_lt h
    simp only [Memory.write]
    split
    · exact Memory.wf_cons h fun c hc => by
        rcases List.mem_cons.mp hc with rfl | hc
        · assumption
        · exact Nat.lt_trans ‹_› (hlt c hc)
    · split
      · subst_vars
        exact Memory.wf_cons (Memory.wf_tail h) hlt
      · refine Memory.wf_cons (ih (Memory.wf_tail h)) fun c hc => ?_
        rcases Memory.mem_write hc with rfl | hc
        · show y < a
          omega
        · exact hlt c hc

/-- `MemWrite` keeps the form. -/
theorem Memory.writeBytes_wf (bs : List Byte) {m : Memory} (a : Nat) (h : m.wf = true) :
    (m.writeBytes a bs).wf = true := by
  induction bs generalizing m a with
  | nil => exact h
  | cons b rest ih => exact ih _ (Memory.write_wf a b h)

/-- The cells after a `MemWrite` are old cells or lie in the written range. -/
theorem Memory.mem_writeBytes (bs : List Byte) {m : Memory} {a : Nat} {c : Host.Cell} (h : c ∈ m.writeBytes a bs) :
    c ∈ m ∨ (a ≤ c.1 ∧ c.1 < a + bs.length) := by
  induction bs generalizing m a with
  | nil => exact .inl h
  | cons b rest ih =>
    rcases ih h with h | h
    · rcases Memory.mem_write h with rfl | h
      · exact .inr ⟨Nat.le_refl _, by simp⟩
      · exact .inl h
    · exact .inr ⟨by omega, by simp only [List.length_cons]; omega⟩

/-- The zero fill of `BUF` keeps the form (R144). -/
theorem State.zeroBuf_wf {s : State} (h : s.buf.wf = true) : s.zeroBuf.buf.wf = true := Memory.writeBytes_wf _ _ h

/-- The reset event leaves a memory in form (R190). -/
theorem resetEvent_buf_wf (s : State) : (resetEvent s).buf.wf = true := rfl

/-- The memory of the reset state is in form. -/
theorem State.reset_buf_wf : State.reset.buf.wf = true := rfl

/-! ### The bytes the machine reads -/

/-- The byte read at an address depends on what stands there and on the draw of the last reset. -/
theorem State.bufByte_congr {s t : State} {a : Nat} (hb : t.buf.read a = s.buf.read a) (hd : t.bufDraw = s.bufDraw) :
    t.bufByte a = s.bufByte a := by
  simp only [State.bufByte, hb, hd]

/-- A written byte is what a read returns (R60). -/
theorem State.bufByte_of_read {s : State} {a : Nat} {b : Byte} (h : s.buf.read a = some b) : s.bufByte a = b := by
  simp only [State.bufByte, h]

/-- The bytes read after a `MemWrite` (R51, R60). -/
theorem State.bufByte_memWrite (s : State) (addr : Nat) (bs : List Byte) (x : Nat) :
    (s.memWrite addr bs).bufByte x =
      if h : addr ≤ x ∧ x < addr + bs.length then bs[x - addr]'(by omega) else s.bufByte x := by
  simp only [State.bufByte, State.memWrite_buf, State.memWrite_bufDraw, Memory.read_writeBytes]
  by_cases h : addr ≤ x ∧ x < addr + bs.length
  · rw [dif_pos h, dif_pos h]
  · rw [dif_neg h, dif_neg h]

end Sys2Proof.Machine
end

