-- ==== Sys2Proof/Laws/Ops.lean ====
section
/-! SUPPORT. What each shared operation, each meaning and the step can do, said once: if it answers a next state, then one
of the named cases holds. Later proofs cite these and unfold nothing. -/

namespace Sys2Proof.Machine

/-! ### Shared operations -/

/-- The sticky gate (R164 check (1), R166). -/
theorem unlessFaulted_next {s d t : State} {r : Host.Outcome State Fault Refusal} (h : unlessFaulted s d r = .next t) :
    (s.fault = true ∧ t = d) ∨ (s.fault = false ∧ r = .next t) := by
  simp only [unlessFaulted] at h
  split at h
  · exact .inl ⟨‹_›, by injection h with h; exact h.symm⟩
  · exact .inr ⟨Bool.eq_false_iff.mpr ‹_›, h⟩

/-- With no fault recorded the gate is open. -/
theorem unlessFaulted_open {s d : State} {r : Host.Outcome State Fault Refusal} (h : s.fault = false) :
    unlessFaulted s d r = r := by
  simp [unlessFaulted, h]

/-- While a fault is recorded the gate is shut. -/
theorem unlessFaulted_shut {s d : State} {r : Host.Outcome State Fault Refusal} (h : s.fault = true) :
    unlessFaulted s d r = .next d := by
  simp [unlessFaulted, h]

/-- A micro-operation that completes works on the registers of the `PROCESS` under way (R25, R76). -/
theorem onEngine_next {f : Engine → Engine} {s t : State} (h : onEngine f s = .next t) :
    ∃ e, s.engine = some e ∧ t = { s with engine := some (f e) } := by
  simp only [onEngine] at h
  split at h
  · cases h
  · injection h with h
    exact ⟨_, ‹_›, h.symm⟩

/-- A host access that has a next state is at an address of `BUF` (R207). -/
theorem ifBufHas_next {addr : Nat} {s t u : State} (h : ifBufHas addr s t = .next u) :
    addr < s.params.bufLen ∧ u = t := by
  simp only [ifBufHas] at h
  split at h
  · injection h with h
    exact ⟨‹_›, h.symm⟩
  · cases h

/-! ### The rounds of a block -/

/-- `advance` ends the block after `RI = 63` and otherwise steps `RI` (R27). -/
theorem advance_eq (s : State) : ∃ h w e, advance s = s.withBlock h w e := by
  unfold advance
  split
  · exact ⟨s.h, s.w, s.engine, rfl⟩
  · split
    · exact ⟨_, _, _, rfl⟩
    · exact ⟨s.h, s.w, _, rfl⟩

/-- A turn of the loop changes nothing but `H`, `W` and the working registers. -/
theorem roundTurn_eq (s : State) : ∃ h w e, roundTurn s = s.withBlock h w e := by
  unfold roundTurn
  split
  · exact ⟨s.h, s.w, s.engine, rfl⟩
  · obtain ⟨h, w, e, he⟩ := advance_eq { s with engine := some (selectedRound ‹Engine›.ri s.w ‹Engine›) }
    exact ⟨h, w, e, he⟩

/-- So do any number of turns. -/
theorem roundTurns_eq (n : Nat) (s : State) : ∃ h w e, roundTurns n s = s.withBlock h w e := by
  induction n generalizing s with
  | zero => exact ⟨s.h, s.w, s.engine, rfl⟩
  | succ n ih =>
    obtain ⟨h, w, e, h1⟩ := roundTurn_eq s
    obtain ⟨h', w', e', h2⟩ := ih (roundTurn s)
    exact ⟨h', w', e', h2.trans (h1 ▸ rfl)⟩

/-- Nor does a whole block, its load included. -/
theorem block_eq (off : Nat) (s : State) : ∃ h w e, roundTurns 64 (loadBlock off s) = s.withBlock h w e := by
  obtain ⟨h, w, e, hb⟩ := roundTurns_eq 64 (loadBlock off s)
  exact ⟨h, w, e, hb⟩

/-! ### The meanings -/

/-- `PROCESS` (R121): discarded, out of range, or run. -/
theorem execProcess_next {off : Nat} {s t : State} (h : execProcess off s = .next t) :
    (s.fault = true ∧ t = s) ∨
    (s.fault = false ∧ s.params.bufLen < off + 64 ∧ t = raise .blockRange (processWord off) s) ∨
    (s.fault = false ∧ off + 64 ≤ s.params.bufLen ∧ s.life = .active ∧ t = roundTurns 64 (loadBlock off s)) := by
  rcases unlessFaulted_next h with ⟨hf, rfl⟩ | ⟨hf, h⟩
  · exact .inl ⟨hf, rfl⟩
  · simp only [blockInRange, decide_eq_true_eq] at h
    split at h
    · split at h
      · cases h
      · injection h with h
        exact .inr (.inr ⟨hf, ‹_›, ‹_›, h.symm⟩)
    · injection h with h
      exact .inr (.inl ⟨hf, by omega, h.symm⟩)

/-- `GET` (R141, R166). -/
theorem execGet_next {s t : State} (h : execGet s = .next t) :
    (s.fault = true ∧ t = s.undefineDout) ∨ (s.fault = false ∧ t = { s with dout := s.h }) :=
  (unlessFaulted_next h).imp_right (And.imp_right fun h => by injection h with h; exact h.symm)

/-- `SET` (R142, R166). -/
theorem execSet_next {s t : State} (h : execSet s = .next t) :
    (s.fault = true ∧ t = s) ∨ (s.fault = false ∧ t = { s with h := setOperands s }) :=
  (unlessFaulted_next h).imp_right (And.imp_right fun h => by injection h with h; exact h.symm)

/-- `RCLEAN` (R143, R166). -/
theorem execRclean_next {s t : State} (h : execRclean s = .next t) :
    (s.fault = true ∧ t = s) ∨ (s.fault = false ∧ t = s.clearSchedule) :=
  (unlessFaulted_next h).imp_right (And.imp_right fun h => by injection h with h; exact h.symm)

/-- `RND1` (R133). -/
theorem execRnd1_next {j : Fin 16} {s t : State} (h : execRnd1 j s = .next t) :
    ∃ e, s.engine = some e ∧ t = { s with engine := some (round1 j s.w e) } := onEngine_next h

/-- `RND2` (R134). -/
theorem execRnd2_next {j : Fin 16} {s t : State} (h : execRnd2 j s = .next t) :
    ∃ e, s.engine = some e ∧ t = { s with engine := some (round2 j s.w e) } := onEngine_next h

/-- `RND3` (R135). -/
theorem execRnd3_next {j : Fin 16} {s t : State} (h : execRnd3 j s = .next t) :
    ∃ e, s.engine = some e ∧ t = { s with engine := some (round3 j s.w e) } := onEngine_next h

/-- `RND4` (R136). -/
theorem execRnd4_next {j : Fin 16} {s t : State} (h : execRnd4 j s = .next t) :
    ∃ e, s.engine = some e ∧ t = { s with engine := some (round4 j s.w e) } := onEngine_next h

/-- `INIT` (R140). -/
theorem execInit_next {s t : State} (h : execInit s = .next t) : t = s.construct := by
  injection h with h
  exact h.symm

/-- `DESTROY` (R144). -/
theorem execDestroy_next {s t : State} (h : execDestroy s = .next t) :
    t = { s.zeroBuf with h := zeroQuad, w := zeroSchedule, life := .destroyed } := by
  injection h with h
  exact h.symm

/-! ### The step -/

/-- A command word: decoded and executed, or illegal (R164). -/
theorem issueCommand_next {cw : Word} {din : Quad} {s t : State} (h : issueCommand cw din s = .next t) :
    (∃ i, decodeCommand cw = .ok i ∧ exec i { s with din := din } = .next t) ∨
    (∃ r, decodeCommand cw = .error r ∧ t = illegalCommand cw { s with din := din }) := by
  unfold issueCommand at h
  split at h
  · exact .inl ⟨_, ‹_›, h⟩
  · injection h with h
    exact .inr ⟨_, ‹_›, h.symm⟩

/-- An illegal word leaves the fault as it is or records its own (R164, R166). -/
theorem illegalCommand_eq (cw : Word) (s : State) :
    (s.fault = true ∧ illegalCommand cw s = s) ∨ (s.fault = false ∧ illegalCommand cw s = raise .illegalCmd cw s) := by
  unfold illegalCommand
  split
  · exact .inl ⟨‹_›, rfl⟩
  · exact .inr ⟨Bool.eq_false_iff.mpr ‹_›, rfl⟩

/-- One round of a `PROCESS` under way is the micro-operation of `RI`, then the sequencer (R121 step 7). -/
theorem microStep_next {ri : BitVec 6} {s t : State} (h : microStep ri s = .next t) :
    ∃ u, exec (decodeRound ri) s = .next u ∧ t = advance u := by
  unfold microStep at h
  split at h
  · injection h with h
    exact ⟨_, ‹_›, h.symm⟩
  · cases h
  · cases h

/-- What a step can do (R206): reset, a round, a move of the host, or nothing. -/
theorem step_next {s t : State} (h : step s = .next t) :
    (∃ rest, s.moves = .reset :: rest ∧ t = resetEvent { s with moves := rest }) ∨
    (∃ e, s.engine = some e ∧ s.moves.head? ≠ some .reset ∧ microStep e.ri s = .next t) ∨
    (∃ mv rest, s.engine = none ∧ s.moves = mv :: rest ∧ mv ≠ .reset ∧ hostMove mv { s with moves := rest } = .next t) ∨
    (s.engine = none ∧ s.moves = [] ∧ t = s) := by
  unfold step stepOnce at h
  split at h
  · injection h with h
    exact .inl ⟨_, ‹_›, h.symm⟩
  · rename_i e he hm
    refine .inr (.inl ⟨e, he, fun hr => ?_, h⟩)
    cases hs : s.moves with
    | nil => simp [hs] at hr
    | cons mv rest =>
      simp only [hs, List.head?_cons, Option.some.injEq] at hr
      exact hm rest (by rw [hs, hr])
  · rename_i mv rest hr hs he
    exact .inr (.inr (.inl ⟨mv, rest, he, hs, hr, h⟩))
  · injection h with h
    exact .inr (.inr (.inr ⟨‹_›, ‹_›, h.symm⟩))

/-! ### Runs -/

/-- A run of no step. -/
theorem run_zero (s : State) : Host.Core.run Sys2Proof.core 0 s = .next s := rfl

/-- A run whose first step has a next state goes on from there. -/
theorem run_next {s t : State} (k : Nat) (h : step s = .next t) :
    Host.Core.run Sys2Proof.core (k + 1) s = Host.Core.run Sys2Proof.core k t := by
  have h' : Sys2Proof.core.step s = .next t := h
  simp only [Host.Core.run, h']

/-- A run that gets as far as `t` in `j` steps goes on from there. -/
theorem run_add {s t : State} (j k : Nat) (h : Host.Core.run Sys2Proof.core j s = .next t) :
    Host.Core.run Sys2Proof.core (j + k) s = Host.Core.run Sys2Proof.core k t := by
  induction j generalizing s with
  | zero =>
    have h' : s = t := by injection h
    rw [Nat.zero_add, h']
  | succ j ih =>
    cases hs : step s with
    | next u =>
      rw [run_next j hs] at h
      rw [Nat.succ_add, run_next _ hs]
      exact ih h
    | fault r =>
      have hs' : Sys2Proof.core.step s = .fault r := hs
      simp only [Host.Core.run, hs'] at h
      cases h
    | refused r =>
      have hs' : Sys2Proof.core.step s = .refused r := hs
      simp only [Host.Core.run, hs'] at h
      cases h

end Sys2Proof.Machine
end

