-- ==== Sys2Proof/Laws/HostDuties.lean ====
section
/-! SUPPORT. How many moves each of the host's functions makes, the lengths of padded messages and their pieces, and how runs
that go well join. -/

namespace Sys2Proof.Machine

/-! ### Lengths -/

@[simp] theorem writeMoves_length (addr : Nat) (bytes : List Byte) : (writeMoves addr bytes).length = bytes.length := by
  induction bytes generalizing addr with
  | nil => rfl
  | cons _ _ ih => simp [writeMoves, ih]

@[simp] theorem processMoves_length (check : Bool) (off : Nat) :
    (processMoves check off).length = if check then 3 else 2 := by
  cases check <;> rfl

@[simp] theorem processRun_length (check : Bool) (off n : Nat) :
    (processRun check off n).length = n * if check then 3 else 2 := by
  induction n generalizing off with
  | zero => simp [processRun]
  | succ n ih => simp only [processRun, List.length_append, processMoves_length, ih]; ring

@[simp] theorem littleEndian_length (n k : Nat) : (littleEndian n k).length = k := by
  induction k with
  | zero => rfl
  | succ k ih => simp [littleEndian, ih]

/-- A padded message is a whole number of blocks (R194). -/
theorem pad_length_mod (m : List Byte) : (pad m).length % 64 = 0 := by
  simp only [pad, List.length_append, List.length_cons, List.length_replicate, littleEndian_length, padZeros]
  omega

/-- The pieces of a byte string of `n` blocks are `n` blocks, and put together they are the string. -/
theorem pieces_of_length (n : Nat) (bs : List Byte) (h : bs.length = 64 * n) :
    (∀ b ∈ pieces n bs, b.length = 64) ∧ (pieces n bs).length = n ∧ (pieces n bs).flatten = bs := by
  induction n generalizing bs with
  | zero => simpa [pieces] using (List.eq_nil_of_length_eq_zero (by simpa using h)).symm
  | succ n ih =>
    obtain ⟨h1, h2, h3⟩ := ih (bs.drop 64) (by simp; omega)
    refine ⟨fun b hb => ?_, by simp [pieces, h2], by simp [pieces, h3]⟩
    rcases List.mem_cons.mp hb with rfl | hb
    · simp; omega
    · exact h1 b hb

/-- The blocks of a message are complete, and there are `pad` over 64 of them. -/
theorem messageBlocks_spec (m : List Byte) :
    (∀ b ∈ messageBlocks m, b.length = 64) ∧ 64 * (messageBlocks m).length = (pad m).length := by
  have h := pad_length_mod m
  obtain ⟨h1, h2, -⟩ := pieces_of_length ((pad m).length / 64) (pad m) (by omega)
  exact ⟨h1, by rw [messageBlocks, h2]; omega⟩

/-- The blocks of one batch after those of others. -/
@[simp] theorem batchesBlocks_cons (b : Batch) (bs : List Batch) :
    batchesBlocks (b :: bs) = b.blocks ++ batchesBlocks bs := rfl

@[simp] theorem batchesBlocks_nil : batchesBlocks [] = [] := rfl

@[simp] theorem batchesMoves_cons (check : Bool) (b : Batch) (bs : List Batch) :
    batchesMoves check (b :: bs) = b.moves check ++ batchesMoves check bs := rfl

@[simp] theorem batchesMoves_nil (check : Bool) : batchesMoves check [] = [] := rfl

@[simp] theorem batchesBlocks_oneByOne (off : Nat) (blocks : List (List Byte)) :
    batchesBlocks (oneByOne off blocks) = blocks := by
  induction blocks with
  | nil => rfl
  | cons _ _ ih => exact congrArg _ ih

@[simp] theorem batchesBlocks_allAtOnce (off : Nat) (blocks : List (List Byte)) :
    batchesBlocks (allAtOnce off blocks) = blocks := by
  simp [batchesBlocks, allAtOnce]

/-- What a batch that fits is. -/
theorem Batch.fits_iff (p : Params) (b : Batch) :
    b.fits p = true ↔ (∀ blk ∈ b.blocks, blk.length = 64) ∧ b.off + 64 * b.blocks.length ≤ p.bufLen := by
  simp [Batch.fits]

/-! ### Runs that go well -/

/-- One step that records no fault, then the rest. -/
theorem goesWell_next {s t : State} (k : Nat) (h : step s = .next t) (hf : t.fault = false) :
    goesWell (k + 1) s = goesWell k t := by
  simp only [goesWell, h, hf, Bool.not_false, Bool.true_and]

/-- A run that goes well and another from where it ends. -/
theorem goesWell_add {s t : State} (j k : Nat) (h : Host.Core.run Sys2Proof.core j s = .next t) (hg : goesWell j s = true) :
    goesWell (j + k) s = goesWell k t := by
  induction j generalizing s with
  | zero =>
    rw [run_zero] at h
    injection h with h
    rw [Nat.zero_add, h]
  | succ j ih =>
    rw [goesWell] at hg
    split at hg
    · rename_i u hu
      rw [Bool.and_eq_true, Bool.not_eq_true'] at hg
      rw [run_next j hu] at h
      rw [show j + 1 + k = (j + k) + 1 by omega, goesWell_next _ hu hg.1, ih h hg.2]
    · cases hg
    · cases hg

end Sys2Proof.Machine
end

