-- ==== Sys2Proof/Laws/PerInstr.lean ====
section
/-! SUPPORT. Statements made for every instruction as syntax, one lemma per constructor.
`EncodingMatchesRow`: the encoding of a well-formed instruction has its opcode-table row's bits under that row's mask,
in that row's format (30_encoding R71, R76). -/

namespace Sys2Proof.Laws.EncodingMatchesRow

/-- The encoding is a command word with the bits `pattern` under `mask`. -/
def commandRow (pattern mask : Word) (e : Encoding) : Prop :=
  ∃ cw, e = .cmd cw ∧ cw &&& mask = pattern

/-- The encoding is a round index with the bits `pattern` under `mask`. -/
def roundRow (pattern mask : BitVec 6) (e : Encoding) : Prop :=
  ∃ ri, e = .rnd ri ∧ ri &&& mask = pattern

/-- The row of spec/opcode_table.json an instruction belongs to. -/
def rowOf : Instr → Encoding → Prop
  | .init => commandRow 0x10000000 0xFFFFFFFF
  | .get => commandRow 0x20000000 0xFFFFFFFF
  | .set => commandRow 0x30000000 0xFFFFFFFF
  | .process _ => commandRow 0x40000000 0xF0000000
  | .rclean => commandRow 0x50000000 0xFFFFFFFF
  | .destroy => commandRow 0x60000000 0xFFFFFFFF
  | .rnd1 _ => roundRow 0x00 0x30
  | .rnd2 _ => roundRow 0x10 0x30
  | .rnd3 _ => roundRow 0x20 0x30
  | .rnd4 _ => roundRow 0x30 0x30

/-- A well-formed instruction's encoding matches its row. -/
def Statement (i : Instr) : Prop := i.wf = true → rowOf i (encode i)

theorem init : Statement .init := fun _ => ⟨_, rfl, by decide⟩

theorem get : Statement .get := fun _ => ⟨_, rfl, by decide⟩

theorem set : Statement .set := fun _ => ⟨_, rfl, by decide⟩

/-- Bit by bit: the four top bits are `op`, and the mask clears the argument. -/
theorem process (off : Nat) : Statement (.process off) := fun _ => by
  refine ⟨_, rfl, ?_⟩
  apply BitVec.eq_of_getLsbD_eq
  intro k hk
  simp only [commandWord, BitVec.getLsbD_and, BitVec.getLsbD_append]
  by_cases h : k < 28
  · have hz : ∀ k < 28, (0xF0000000#32).getLsbD k = false ∧ (0x40000000#32).getLsbD k = false := by decide
    simp [hz k h]
  · have hz : ∀ k < 32, 28 ≤ k → ((0x4#4).getLsbD (k - 28) && (0xF0000000#32).getLsbD k) =
        (0x40000000#32).getLsbD k := by decide
    simpa [h] using hz k hk (by omega)

theorem rclean : Statement .rclean := fun _ => ⟨_, rfl, by decide⟩

theorem destroy : Statement .destroy := fun _ => ⟨_, rfl, by decide⟩

theorem rnd1 (j : Fin 16) : Statement (.rnd1 j) := fun _ => ⟨_, rfl, by revert j; decide⟩

theorem rnd2 (j : Fin 16) : Statement (.rnd2 j) := fun _ => ⟨_, rfl, by revert j; decide⟩

theorem rnd3 (j : Fin 16) : Statement (.rnd3 j) := fun _ => ⟨_, rfl, by revert j; decide⟩

theorem rnd4 (j : Fin 16) : Statement (.rnd4 j) := fun _ => ⟨_, rfl, by revert j; decide⟩

end Sys2Proof.Laws.EncodingMatchesRow
end

