-- ==== Sys2Proof/Laws/Sine.lean ====
section
/-! SUPPORT. Real analysis for the sine table of 40_datapath R97: decimals near the sine and cosine of 1 radian, the step
to one radian more, and the floor of R97 from a decimal near the sine. -/

namespace Sys2Proof.Laws.Sine

open Complex

/-- `exp i` and its first 28 terms differ by at most `10^-28`. -/
theorem exp_I_near : ‖Complex.exp I - ∑ m ∈ Finset.range 28, I ^ m / (m.factorial : ℂ)‖ ≤ 1 / 10 ^ 28 := by
  refine (Complex.exp_bound (x := I) (by simp) (n := 28) (by norm_num)).trans ?_
  simp [Nat.factorial]
  norm_num

/-- `i` to a multiple of 4 is 1. -/
theorem pow4 (k : ℕ) : (I : ℂ) ^ (4 * k) = 1 := by rw [pow_mul, I_pow_four, one_pow]

/-- Four successive terms of the series of `exp i`, real and imaginary parts apart. -/
theorem quarter (k : ℕ) : I ^ (4 * k) / ((4 * k).factorial : ℂ) + I ^ (4 * k + 1) / ((4 * k + 1).factorial : ℂ) + I ^ (4 * k + 2) / ((4 * k + 2).factorial : ℂ) + I ^ (4 * k + 3) / ((4 * k + 3).factorial : ℂ)
   = ((1 / ((4 * k).factorial : ℝ) - 1 / ((4 * k + 2).factorial : ℝ) : ℝ) : ℂ) + ((1 / ((4 * k + 1).factorial : ℝ) - 1 / ((4 * k + 3).factorial : ℝ) : ℝ) : ℂ) * I := by
  have h3 : (I : ℂ) ^ 3 = -I := by rw [pow_succ, I_sq]; ring
  rw [pow_add, pow_add, pow_add, pow4, I_sq, h3]
  push_cast
  ring

/-- The first 28 terms of the series of `exp i`, real and imaginary parts apart. -/
theorem sum28 : ∑ m ∈ Finset.range 28, I ^ m / (m.factorial : ℂ) = ((∑ k ∈ Finset.range 7, (1 / ((4 * k).factorial : ℝ) - 1 / ((4 * k + 2).factorial : ℝ)) : ℝ) : ℂ) + ((∑ k ∈ Finset.range 7, (1 / ((4 * k + 1).factorial : ℝ) - 1 / ((4 * k + 3).factorial : ℝ)) : ℝ) : ℂ) * I := by
  rw [ofReal_sum, ofReal_sum, Finset.sum_mul, ← Finset.sum_add_distrib, ← Finset.sum_congr rfl (fun k _ => quarter k)]
  simp only [Finset.sum_range_succ, Finset.sum_range_zero]
  norm_num only
  ring

/-- The cosine and the sine of 1 radian to 25 decimal places. -/
theorem cos_one_near : |Real.cos 1 - 54030230586813971740093661 / 10 ^ 26| ≤ 1 / 10 ^ 25 ∧ |Real.sin 1 - 84147098480789650665250232 / 10 ^ 26| ≤ 1 / 10 ^ 25 := by
  have h := exp_I_near
  rw [sum28] at h
  have e : Complex.exp I = (Real.cos 1 : ℂ) + (Real.sin 1 : ℂ) * I := by
    have := Complex.exp_mul_I (1 : ℂ); rw [one_mul] at this; rw [this]; simp
  rw [e] at h
  set C : ℝ := ∑ k ∈ Finset.range 7, (1 / ((4 * k).factorial : ℝ) - 1 / ((4 * k + 2).factorial : ℝ)) with hC
  set S : ℝ := ∑ k ∈ Finset.range 7, (1 / ((4 * k + 1).factorial : ℝ) - 1 / ((4 * k + 3).factorial : ℝ)) with hS
  have hC' : |C - 54030230586813971740093661 / 10 ^ 26| ≤ 1 / 10 ^ 26 := by
    rw [hC]; simp only [Finset.sum_range_succ, Finset.sum_range_zero, Nat.factorial]; norm_num [abs_le]
  have hS' : |S - 84147098480789650665250232 / 10 ^ 26| ≤ 1 / 10 ^ 26 := by
    rw [hS]; simp only [Finset.sum_range_succ, Finset.sum_range_zero, Nat.factorial]; norm_num [abs_le]
  clear e
  clear_value C S
  generalize Real.cos 1 = c at *
  generalize Real.sin 1 = s at *
  have h1 := (Complex.abs_re_le_norm _).trans h
  have h2 := (Complex.abs_im_le_norm _).trans h
  simp only [sub_re, add_re, mul_re, ofReal_re, ofReal_im, I_re, I_im, sub_im, add_im, mul_im] at h1 h2
  rw [abs_le] at h1 h2 hC' hS'
  rw [abs_le, abs_le]
  constructor <;> constructor <;> linarith [h1.1, h1.2, h2.1, h2.2, hC'.1, hC'.2, hS'.1, hS'.2]

/-- From decimals near the sine and cosine of `t` to decimals near those of `t + 1`. -/
theorem sin_cos_succ {t x y e x' y' e' : ℝ} (hs : |Real.sin t - x| ≤ e) (hc : |Real.cos t - y| ≤ e)
   (h1 : |x * (54030230586813971740093661 / 10 ^ 26) + y * (84147098480789650665250232 / 10 ^ 26) - x'| ≤ 1 / 10 ^ 25)
   (h2 : |y * (54030230586813971740093661 / 10 ^ 26) - x * (84147098480789650665250232 / 10 ^ 26) - y'| ≤ 1 / 10 ^ 25)
   (he : 3 / 2 * e + 3 / 10 ^ 25 ≤ e') :
   |Real.sin (t + 1) - x'| ≤ e' ∧ |Real.cos (t + 1) - y'| ≤ e' := by
  obtain ⟨hc1, hs1⟩ := cos_one_near
  have e0 : 0 ≤ e := (abs_nonneg _).trans hs
  have bs := Real.abs_sin_le_one t
  have bc := Real.abs_cos_le_one t
  rw [Real.sin_add, Real.cos_add]
  generalize Real.sin t = s at *
  generalize Real.cos t = c at *
  generalize Real.sin 1 = s1 at *
  generalize Real.cos 1 = c1 at *
  have k : ∀ u v w : ℝ, |u| ≤ 1 → |v - w| ≤ 1 / 10 ^ 25 → |u * (v - w)| ≤ 1 / 10 ^ 25 := fun u v w h h' => by
    rw [abs_mul]; calc |u| * |v - w| ≤ 1 * (1 / 10 ^ 25) := mul_le_mul h h' (abs_nonneg _) zero_le_one
      _ = _ := one_mul _
  have a1 := k s c1 _ bs hc1
  have a2 := k c s1 _ bc hs1
  have a3 := k c c1 _ bc hc1
  have a4 := k s s1 _ bs hs1
  rw [abs_le] at hs hc h1 h2 a1 a2 a3 a4
  refine ⟨abs_le.mpr ⟨?_, ?_⟩, abs_le.mpr ⟨?_, ?_⟩⟩ <;> linarith

/-- The scaled floor of R97 from a decimal near the sine. -/
theorem floor_of_near {t x e : ℝ} {k : ℤ} (h : |Real.sin t - x| ≤ e) (h1 : (k : ℝ) ≤ 2 ^ 32 * (|x| - e)) (h2 : 2 ^ 32 * (|x| + e) < k + 1) : ⌊(2 : ℝ) ^ 32 * |Real.sin t|⌋ = k := by
  have h3 := abs_abs_sub_abs_le_abs_sub (Real.sin t) x
  have h4 := abs_le.mp (h3.trans h)
  rw [Int.floor_eq_iff]
  constructor <;> linarith

end Sys2Proof.Laws.Sine
end

