-- ==== Sys2Proof/Tests/Slice0.lean ====
section
/-! SUPPORT. The model's own tests. Expected results are the vectors of 95_test_vectors (their ids V<n> stand at each test) and
the worked examples of the rules. The second half holds one witness for each obligation with hypotheses: a concrete state
and operands that meet all of them together. -/

namespace Sys2Proof.Tests

open Sys2Proof Sys2Proof.Machine

/-! ### Helpers -/

/-- Just after reset, with `BUF_LEN = n` and `AUTO_CLEAN = clean`. -/
def fresh (n : Nat) (clean : Bool) : State := State.resetWith { bufLen := n, autoClean := clean }

/-- The padded block of the empty message (V200). -/
def emptyBlock : List Byte := 0x80 :: List.replicate 63 0

/-- The padded block of "abc" (V201). -/
def abcBlock : List Byte := 0x61 :: 0x62 :: 0x63 :: 0x80 :: (List.replicate 52 0 ++ 0x18 :: List.replicate 7 0)

/-- A 64-byte instance with a block in `BUF`. -/
def holding (clean : Bool) (blk : List Byte) : State := (fresh 64 clean).memWrite 0 blk

/-- A destroyed instance with no fault recorded. -/
def ended (n : Nat) : State := { fresh n false with life := .destroyed }

/-- The instance after V402: `PROCESS 65` on 128 bytes. -/
def faulted : State := raise .blockRange 0x40000041 (fresh 128 false)

/-- An instance inside a `PROCESS` at `RI = ri` with the given working registers. -/
def inBlock (ri : BitVec 6) (a b c d : Word) : State :=
  { loadBlock 0 (holding false emptyBlock) with engine := some { a := a, b := b, c := c, d := d, t := 0, ri := ri } }

/-- An instance whose host makes the one move `mv`. -/
def moving (mv : HostMove) : State := { fresh 64 false with moves := [mv] }

/-- The outcome is a next state of which `p` is true. -/
def nextWith (o : Host.Outcome State Fault Refusal) (p : State → Bool) : Bool :=
  match o with
  | .next t => p t
  | .fault _ => false
  | .refused _ => false

/-- The outcome is the refusal `r`. -/
def refusedWith (o : Host.Outcome State Fault Refusal) (r : Refusal) : Bool :=
  match o with
  | .next _ => false
  | .fault _ => false
  | .refused q => decide (q = r)

/-- The working registers are these. -/
def working (s : State) (t a b c d : Word) : Bool :=
  match s.engine with
  | none => false
  | some e => e.t == t && e.a == a && e.b == b && e.c == c && e.d == d

/-- The schedule is all zero. -/
def scheduleZero (s : State) : Bool := s.w.toList.all (· == 0)

/-! ### Well-formedness: each check refuses an ill-formed term -/

theorem test_wf_process : (Instr.process (2 ^ 28 - 1)).wf = true ∧ (Instr.process (2 ^ 28)).wf = false := by decide

theorem test_wf_params :
    ({ bufLen := 64, autoClean := true } : Params).wf = true ∧ ({ bufLen := 2 ^ 28, autoClean := false } : Params).wf = true ∧
    ({ bufLen := 63, autoClean := false } : Params).wf = false ∧
    ({ bufLen := 2 ^ 28 + 1, autoClean := true } : Params).wf = false := by decide

theorem test_wf_host_move :
    HostMove.wf { bufLen := 64, autoClean := false } (.writeBuf 63 0) = true ∧
    HostMove.wf { bufLen := 64, autoClean := false } (.writeBuf 64 0) = false ∧
    HostMove.wf { bufLen := 64, autoClean := false } (.readBuf 64) = false := by decide

theorem test_wf_memory :
    Memory.wf [(0, 1), (5, 0)] = true ∧ Memory.wf [(5, 0), (5, 1)] = false ∧ Memory.wf [(5, 0), (4, 1)] = false := by decide

/-! ### Decoding and encoding, from words written out by the tables of R71 and R76 -/

theorem test_decode_init : decodeCommand 0b00010000000000000000000000000000 = .ok .init := by decide      -- V20
theorem test_decode_get : decodeCommand 0b00100000000000000000000000000000 = .ok .get := by decide        -- V21
theorem test_decode_set : decodeCommand 0b00110000000000000000000000000000 = .ok .set := by decide        -- V22
theorem test_decode_process :
    decodeCommand 0b01000000000000000000000000000011 = .ok (.process 3) ∧                                 -- V24
    decodeCommand 0b01001111111111111111111111111111 = .ok (.process 268435455) := by decide              -- V27
theorem test_decode_rclean : decodeCommand 0b01010000000000000000000000000000 = .ok .rclean := by decide  -- V28
theorem test_decode_destroy : decodeCommand 0b01100000000000000000000000000000 = .ok .destroy := by decide -- V29

/-- V30 to V36. -/
theorem test_decode_illegal :
    decodeCommand 0x00000000 = .error .opcode ∧ decodeCommand 0x70000000 = .error .opcode ∧
    decodeCommand 0xffffffff = .error .opcode ∧ decodeCommand 0x50000001 = .error .argument ∧
    decodeCommand 0x10000040 = .error .argument ∧ decodeCommand 0x28000000 = .error .argument ∧
    decodeCommand 0x80000000 = .error .opcode := by decide

theorem test_decode_rnd1 : decodeRound 0b000000 = .rnd1 0 ∧ decodeRound 0b001111 = .rnd1 15 := by decide  -- V40, V41
theorem test_decode_rnd2 : decodeRound 0b010000 = .rnd2 0 ∧ decodeRound 0b011111 = .rnd2 15 := by decide  -- V42, V43
theorem test_decode_rnd3 : decodeRound 0b100000 = .rnd3 0 ∧ decodeRound 0b101111 = .rnd3 15 := by decide  -- V44, V45
theorem test_decode_rnd4 : decodeRound 0b110000 = .rnd4 0 ∧ decodeRound 0b111111 = .rnd4 15 := by decide  -- V46, V47

theorem test_encode :
    encode .init = .cmd 0x10000000 ∧ encode .get = .cmd 0x20000000 ∧ encode .set = .cmd 0x30000000 ∧
    encode (.process 65) = .cmd 0x40000041 ∧ encode .rclean = .cmd 0x50000000 ∧ encode .destroy = .cmd 0x60000000 ∧
    encode (.rnd1 15) = .rnd 0b001111 ∧ encode (.rnd2 0) = .rnd 0b010000 ∧ encode (.rnd3 15) = .rnd 0b101111 ∧
    encode (.rnd4 15) = .rnd 0b111111 := by decide

theorem test_decode_table_word :
    decodeTableWord 32 0x40000003 = some (.process 3) ∧ decodeTableWord 32 0x70000000 = none ∧
    decodeTableWord 8 0x35 = some (.rnd4 5) ∧ decodeTableWord 8 0x40 = none := by decide

/-- The pseudo-instruction of R79: `PROCESS.C 64` is `0x40000040 0x50000000`. -/
theorem test_pseudo_process_clean :
    (AsmLine.processC 64).expand = [.command 0x40000040 zeroQuad, .command 0x50000000 zeroQuad] := by decide

/-! ### Datapath -/

/-- V101, V103, V104, V106, V107. -/
theorem test_add32 :
    add32 0xffffffff 1 = 0 ∧ add32 0x98badcfe 0x67452301 = 0xffffffff ∧ add32 0x98badcff 0x67452301 = 0 ∧
    add32 0x7fffffff 1 = 0x80000000 ∧ sum4 0xffffffff 0xffffffff 0xffffffff 0xffffffff = 0xfffffffc := by decide

/-- V120, V125, V135 and the two amounts that fix the direction. -/
theorem test_rotl32 :
    rotl32 0x12345678 4 = 0x23456781 ∧ rotl32 0x12345678 10 = 0xd159e048 ∧ rotl32 0x80000001 23 = 0x00c00000 ∧
    rotl32 1 31 = 0x80000000 ∧ rotl32 0x80000000 1 = 1 := by decide

/-- V146: the eight rows of the truth table at once; V140: the complement in `RF4`. -/
theorem test_round_functions :
    rf1 0xf0f0f0f0 0xcccccccc 0xaaaaaaaa = 0xcacacaca ∧ rf2 0xf0f0f0f0 0xcccccccc 0xaaaaaaaa = 0xe4e4e4e4 ∧
    rf3 0xf0f0f0f0 0xcccccccc 0xaaaaaaaa = 0x96969696 ∧ rf4 0xf0f0f0f0 0xcccccccc 0xaaaaaaaa = 0x39393939 ∧
    rf4 0 0 0 = 0xffffffff := by decide

/-- V162 to V171. -/
theorem test_round_tables :
    ([15, 16, 17, 31, 32, 33, 47, 48, 49, 63] : List (BitVec 6)).map (fun i => ((gidx i).val, roundShift i, krom i)) =
      [(15, 22, 0x49b40821), (1, 5, 0xf61e2562), (6, 9, 0xc040b340), (12, 20, 0x8d2a4c8a), (5, 4, 0xfffa3942),
       (8, 11, 0x8771f681), (2, 23, 0xc4ac5665), (0, 6, 0xf4292244), (7, 10, 0x432aff97), (9, 21, 0xeb86d391)] := by decide

/-- V182, V184, V187. -/
theorem test_le32 :
    le32 0 0 0 0x80 = 0x80000000 ∧ le32 0x54 0x68 0x65 0x20 = 0x20656854 ∧ le32 0xee 0xee 0xee 0x61 = 0x61eeeeee := by decide

/-! ### The rounds: the worked examples of R133 to R136 -/

theorem test_rnd1 :
    nextWith (exec (.rnd1 0) (inBlock 0 0x67452301 0xefcdab89 0x98badcfe 0x10325476))
      (working · 0xd76aa4f7 0x10325476 0xa5202774 0xefcdab89 0x98badcfe) = true := by decide

theorem test_rnd2 :
    nextWith (exec (.rnd2 0) (inBlock 16 0xf56c7cf1 0xd6819c6a 0x5aa53f75 0x374943a7))
      (working · 0x4a2fdec5 0x374943a7 0x1c7d7513 0xd6819c6a 0x5aa53f75) = true := by decide

theorem test_rnd3 :
    nextWith (exec (.rnd3 0) (inBlock 32 0x13707036 0xa2205f1f 0x1c31c384 0xae7813db))
      (working · 0x23d438b8 0xae7813db 0xdf63eaa1 0xa2205f1f 0x1c31c384) = true := by decide

theorem test_rnd4 :
    nextWith (exec (.rnd4 0) (inBlock 48 0x3f55edfd 0xca7d2dbd 0x68d84ea2 0x22a31f54))
      (working · 0xeb24b3de 0x22a31f54 0x93aa2577 0xca7d2dbd 0x68d84ea2) = true := by decide

/-- One step of the machine inside a block performs the round of `RI` and advances `RI`. -/
theorem test_step_round :
    nextWith (step (inBlock 16 0xf56c7cf1 0xd6819c6a 0x5aa53f75 0x374943a7)) (fun t =>
      working t 0x4a2fdec5 0x374943a7 0x1c7d7513 0xd6819c6a 0x5aa53f75 && (t.engine.map Engine.ri == some 17)) = true := by decide

/-! ### `PROCESS` -/

set_option maxRecDepth 100000 in
/-- V200, P1 step 2. -/
theorem test_process_empty :
    nextWith (exec (.process 0) (holding false emptyBlock)) (fun t =>
      decide (t.h = { a := 0xd98c1dd4, b := 0x04b2008f, c := 0x980980e9, d := 0x7e42f8ec }) && t.w[0] == 0x00000080 &&
      t.status == 0x00000001 && t.engine.isNone) = true := by decide

set_option maxRecDepth 100000 in
/-- V65: `AUTO_CLEAN`, the block of "abc". -/
theorem test_process_auto_clean :
    nextWith (exec (.process 0) (holding true abcBlock)) (fun t =>
      decide (t.h = { a := 0x98500190, b := 0xb04fd23c, c := 0x7d3f96d6, d := 0x727fe128 }) && scheduleZero t) = true := by
  decide

set_option maxRecDepth 100000 in
/-- V340: an unaligned offset reads exactly its own 64 bytes; `PROCESS 3` of 128 bytes of `ee`. -/
theorem test_process_unaligned :
    nextWith (exec (.process 3) (((fresh 128 false).memWrite 0 (List.replicate 128 0xee)).memWrite 3 abcBlock)) (fun t =>
      decide (t.h = { a := 0x98500190, b := 0xb04fd23c, c := 0x7d3f96d6, d := 0x727fe128 }) &&
      t.w[0] == 0x80636261 && t.w[14] == 0x00000018) = true := by decide

set_option maxRecDepth 100000 in
/-- V301: every sum of the block wraps. -/
theorem test_compress_ones :
    compress { a := 0xffffffff, b := 0xffffffff, c := 0xffffffff, d := 0xffffffff } (List.replicate 64 0xff) =
      { a := 0x6cba9129, b := 0x29ffd12a, c := 0x8b9bb7d3, d := 0xa9a0a3c1 } := by decide

/-- V72, V415: refused, and V414: the range check comes before the lifecycle check. -/
theorem test_process_destroyed :
    refusedWith (exec (.process 0) (ended 64)) .processAfterDestroy = true ∧
    nextWith (exec (.process 1) (ended 64)) (fun t => t.status == 0x00000006 && t.finfo == 0x40000001) = true := by decide

/-! ### The adapter's commands -/

/-- V61. -/
theorem test_init :
    nextWith (exec .init { ended 64 with h := { a := 1, b := 2, c := 3, d := 4 }, w := Vector.replicate 16 0x80636261 })
      (fun t => decide (t.h = { a := 0x67452301, b := 0xefcdab89, c := 0x98badcfe, d := 0x10325476 }) && scheduleZero t &&
        t.status == 0x00000001 && t.finfo == 0) = true := by decide

/-- V60. -/
theorem test_get :
    nextWith (exec .get (fresh 64 false)) (fun t =>
      decide (t.dout = { a := 0x67452301, b := 0xefcdab89, c := 0x98badcfe, d := 0x10325476 }) && t.status == 1) = true := by
  decide

/-- V62, on the step of the machine with the operands on `DIN`. -/
theorem test_set :
    nextWith (step (moving (.command 0x30000000 { a := 1, b := 0xffffffff, c := 0x80000000, d := 0 }))) (fun t =>
      decide (t.h = { a := 1, b := 0xffffffff, c := 0x80000000, d := 0 }) && t.status == 1 && t.moves.isEmpty) = true := by
  decide

/-- V69: `SET` on a destroyed instance leaves it destroyed. -/
theorem test_set_destroyed :
    nextWith (exec .set { ended 64 with din := { a := 1, b := 2, c := 3, d := 4 } }) (fun t =>
      decide (t.h = { a := 1, b := 2, c := 3, d := 4 }) && t.status == 0x00000000) = true := by decide

/-- V63. -/
theorem test_trunc32 :
    truncQuad (2 ^ 32 + 5) (-1) (2 ^ 33) (2 ^ 32) = { a := 5, b := 0xffffffff, c := 0, d := 0 } := by decide

/-- V64. -/
theorem test_rclean :
    nextWith (exec .rclean (loadBlock 0 (holding false abcBlock))) (fun t => scheduleZero t && decide (t.h = iv)) = true := by
  decide

set_option maxRecDepth 100000 in
/-- V67 and V412: `BUF` all zero, its last byte too; the fault record outlives it. -/
theorem test_destroy :
    nextWith (exec .destroy (holding false emptyBlock)) (fun t =>
      decide (t.h = zeroQuad) && scheduleZero t && t.bufByte 0 == 0 && t.bufByte 63 == 0 && t.status == 0) = true ∧
    nextWith (exec .destroy faulted) (fun t => t.status == 0x00000006 && t.finfo == 0x40000041) = true := by decide

/-! ### Faults, on the step of the machine -/

/-- V400 and V403. -/
theorem test_fault_block_range :
    nextWith (step (moving (.command 0x40000001 zeroQuad))) (fun t =>
      t.status == 0x00000007 && t.finfo == 0x40000001 && decide (t.h = iv)) = true ∧
    nextWith (step (moving (.command 0x4fffffff zeroQuad))) (fun t =>
      t.status == 0x00000007 && t.finfo == 0x4fffffff) = true := by decide

/-- V404 to V406. -/
theorem test_fault_illegal_word :
    nextWith (step (moving (.command 0x00000000 zeroQuad))) (fun t => t.status == 0x0000000b && t.finfo == 0) = true ∧
    nextWith (step (moving (.command 0x50000001 zeroQuad))) (fun t => t.status == 0x0000000b && t.finfo == 0x50000001) = true ∧
    nextWith (step (moving (.command 0xffffffff zeroQuad))) (fun t => t.status == 0x0000000b && t.finfo == 0xffffffff) = true := by
  decide

/-- V408 to V411: discarded while the fault of V402 is recorded. -/
theorem test_fault_sticky :
    ([0x30000000, 0x40000000, 0x00000000, 0x50000000] : List Word).all (fun cw =>
      nextWith (step { faulted with moves := [.command cw { a := 1, b := 2, c := 3, d := 4 }] }) (fun t =>
        t.status == 0x00000007 && t.finfo == 0x40000041 && decide (t.h = iv))) = true := by decide

/-- V413: `INIT` clears the record. -/
theorem test_fault_init :
    nextWith (step { faulted with moves := [.command 0x10000000 zeroQuad] }) (fun t =>
      t.status == 0x00000001 && t.finfo == 0) = true := by decide

/-- R190: reset between two rounds ends the `PROCESS` with no effect of its own. -/
theorem test_reset_in_a_block :
    nextWith (step { inBlock 16 1 2 3 4 with moves := [.reset] }) (fun t =>
      decide (t.h = iv) && scheduleZero t && t.status == 1 && t.engine.isNone && (t.buf.read 0).isNone) = true := by decide

/-! ### Whole messages -/

set_option maxRecDepth 100000 in
/-- V1. -/
theorem test_md5_empty :
    md5 [] = [0xd4, 0x1d, 0x8c, 0xd9, 0x8f, 0x00, 0xb2, 0x04, 0xe9, 0x80, 0x09, 0x98, 0xec, 0xf8, 0x42, 0x7e] := by decide

set_option maxRecDepth 100000 in
/-- V2. -/
theorem test_md5_abc :
    md5 [0x61, 0x62, 0x63] =
      [0x90, 0x01, 0x50, 0x98, 0x3c, 0xd2, 0x4f, 0xb0, 0xd6, 0x96, 0x3f, 0x7d, 0x28, 0xe1, 0x7f, 0x72] := by decide

set_option maxRecDepth 100000 in
/-- V331: two blocks, the 64 bytes `61`; digest `014842d480b571495a4a0363793f7367`. -/
theorem test_md5_two_blocks :
    md5 (List.replicate 64 0x61) =
      [0x01, 0x48, 0x42, 0xd4, 0x80, 0xb5, 0x71, 0x49, 0x5a, 0x4a, 0x03, 0x63, 0x79, 0x3f, 0x73, 0x67] := by decide

/-- The examples of R194: `n = 0, 3, 43, 55, 56, 64`. -/
theorem test_padding : [0, 3, 43, 55, 56, 64].map padZeros = [55, 52, 12, 0, 63, 55] := by decide

set_option maxRecDepth 100000 in
/-- P1, begun by reset, and R193's order for one block: 64 writes, `PROCESS 0`, the check, `RCLEAN`, `GET`, `DESTROY`. -/
theorem test_digest_plan :
    (DigestPlan.moves { start := .reset, check := true, batches := oneByOne 0 (messageBlocks []) }).take 2 =
      [.reset, .writeBuf 0 0x80] ∧
    (DigestPlan.moves { start := .reset, check := true, batches := oneByOne 0 (messageBlocks []) }).drop 65 =
      [.command 0x40000000 zeroQuad, .readStatus, .command 0x50000000 zeroQuad, .command 0x20000000 zeroQuad, .readDout,
       .command 0x60000000 zeroQuad] := by decide

set_option maxRecDepth 100000 in
/-- P2: two blocks placed at once, then `PROCESS.C 0` and `PROCESS.C 64`. -/
theorem test_blocks_at_once :
    (batchesMoves false (allAtOnce 0 [List.replicate 64 0x61, emptyBlock])).drop 128 =
      (AsmLine.processC 0).expand ++ (AsmLine.processC 64).expand := by decide

/-! ### The host's two questions on the opcode table, for one word of each format -/

theorem test_fetch_word :
    nextWith (step (State.reset.withFetchWord 32 0x60000000)) (fun t => t.life == .destroyed) = true ∧
    nextWith (step (State.reset.withFetchWord 8 0x31)) (fun t => t.engine.map Engine.ri == some 0x32) = true := by decide

/-! ### Witnesses: the hypotheses of each obligation can be met -/

theorem witness_DecodeOfEncode :
    (Instr.process (2 ^ 28 - 1)).wf = true ∧ (Instr.process 0).wf = true ∧ Instr.init.wf = true ∧
    (Instr.rnd1 0).wf = true ∧ (Instr.rnd4 15).wf = true := by decide

theorem witness_EncodeOfDecode :
    decode (.cmd 0x4fffffff) = .ok (.process 268435455) ∧ decode (.cmd 0x60000000) = .ok .destroy ∧
    decode (.rnd 0) = .ok (.rnd1 0) ∧ decode (.rnd 63) = .ok (.rnd4 15) := by decide

/-- Each clause at the ends of its range: `op` 0, 7 and 15, a nonzero `arg` at 1 and at 2^28 - 1, the legal words. -/
theorem witness_IllegalWordsRaise :
    (0x00000000 : Word).toNat / 2 ^ 28 = 0 ∧ 7 ≤ (0x70000000 : Word).toNat / 2 ^ 28 ∧ 7 ≤ (0xffffffff : Word).toNat / 2 ^ 28 ∧
    ((0x10000001 : Word).toNat / 2 ^ 28 ∈ [1, 2, 3, 5, 6] ∧ (0x10000001 : Word).toNat % 2 ^ 28 ≠ 0) ∧
    ((0x6fffffff : Word).toNat / 2 ^ 28 ∈ [1, 2, 3, 5, 6] ∧ (0x6fffffff : Word).toNat % 2 ^ 28 ≠ 0) ∧
    ((0x60000000 : Word).toNat / 2 ^ 28 ∈ [1, 2, 3, 5, 6] ∧ (0x60000000 : Word).toNat % 2 ^ 28 = 0) ∧
    (0x4fffffff : Word).toNat / 2 ^ 28 = 4 ∧
    decodeCommand 0x6fffffff = .error .argument ∧ (fresh 64 false).fault = false := by decide

theorem witness_RoundIndexSelectsMicroOperation : decodeCommand 0x40000000 = .ok (.process 0) := by decide

/-- The bounds of the amount, `1` and `31`, and of the bit, `0` and `31`. -/
theorem witness_RotationMovesEveryBitLeft :
    (1 ≤ 1 ∧ 1 ≤ 31 ∧ 1 ≤ 31 ∧ 31 ≤ 31 ∧ 0 < 32 ∧ 31 < 32) ∧ (rotl32 1 31).getLsbD 31 = true ∧
    (rotl32 0x80000000 1).getLsbD 0 = true := by decide

theorem witness_RoundFunctionsFollowTruthTable : 0 < 32 ∧ 31 < 32 := by decide

theorem witness_ScheduleWordsAreLittleEndian :
    (holding false abcBlock).memRead (0 + 4 * (0 : Fin 16).val) 4 = [0x61, 0x62, 0x63, 0x80] ∧
    (holding false abcBlock).memRead (0 + 4 * (15 : Fin 16).val) 4 = [0, 0, 0, 0] := by decide

theorem witness_RoundMicroOperationsComplete : ∃ e, (inBlock 0 1 2 3 4).engine = some e := ⟨_, rfl⟩

theorem witness_EveryRoundIsTheGenericStep : ∃ e, (inBlock 63 1 2 3 4).engine = some e := ⟨_, rfl⟩

theorem witness_MicroOperationsNeedAProcess : (fresh 64 false).engine = none := rfl

/-- The last offset in range: 0 of 64 bytes, 64 of 128. -/
theorem witness_ProcessCompletesWithCompress :
    ((holding false abcBlock).ready ∧ 0 + 64 ≤ (holding false abcBlock).params.bufLen) ∧
    (fresh 128 true).ready ∧ 64 + 64 ≤ (fresh 128 true).params.bufLen := by
  refine ⟨⟨⟨rfl, rfl⟩, ?_⟩, ⟨rfl, rfl⟩, ?_⟩ <;> decide

/-- Each clause: a recorded fault; the first offset out of range; the last in range on a destroyed instance. -/
theorem witness_ProcessChecksComeFirst :
    faulted.fault = true ∧ ((fresh 64 false).fault = false ∧ (fresh 64 false).params.bufLen < 1 + 64) ∧
    (ended 64).fault = false ∧ 0 + 64 ≤ (ended 64).params.bufLen ∧ (ended 64).life = .destroyed := by decide

/-- Two instances that differ in `W`, in the offset, in the other bytes of `BUF` and in the parameters. -/
theorem witness_ProcessDependsOnlyOnHashAndBlock :
    (holding true abcBlock).ready ∧
    (((fresh 128 true).memWrite 0 (List.replicate 128 0xee)).memWrite 3 abcBlock).ready ∧
    0 + 64 ≤ (holding true abcBlock).params.bufLen ∧ 3 + 64 ≤ (fresh 128 true).params.bufLen ∧
    (holding true abcBlock).h = (fresh 128 true).h ∧
    (holding true abcBlock).memRead 0 64 =
      (((fresh 128 true).memWrite 0 (List.replicate 128 0xee)).memWrite 3 abcBlock).memRead 3 64 ∧
    (holding true abcBlock).params.autoClean = (fresh 128 true).params.autoClean := by
  refine ⟨⟨rfl, rfl⟩, ⟨rfl, rfl⟩, by decide, by decide, rfl, ?_, rfl⟩
  set_option maxRecDepth 100000 in decide

theorem witness_AutoCleanOnlyClearsSchedule :
    (holding false abcBlock).ready ∧ 0 + 64 ≤ (holding false abcBlock).params.bufLen := ⟨⟨rfl, rfl⟩, by decide⟩

theorem witness_ProcessCleanPseudoIsProcess :
    (holding true abcBlock).ready ∧ 0 + 64 ≤ (holding true abcBlock).params.bufLen ∧
    (holding true abcBlock).params.autoClean = true := ⟨⟨rfl, rfl⟩, by decide, rfl⟩

theorem witness_SixtyFourRoundStepsAreOneProcess :
    (moving .readDout).ready ∧ 0 + 64 ≤ (moving .readDout).params.bufLen ∧ (moving .readDout).moves.head? ≠ some .reset :=
  ⟨⟨rfl, rfl⟩, by decide, by decide⟩

/-- An active and a destroyed instance with no fault recorded, for `GET`, `SET`, `RCLEAN`, `DESTROY`. -/
theorem witness_GetDeliversSnapshot : (fresh 64 false).fault = false ∧ (ended 64).fault = false := ⟨rfl, rfl⟩
theorem witness_SetStoresTruncatedOperands : (fresh 64 true).fault = false ∧ (ended 64).fault = false := ⟨rfl, rfl⟩
theorem witness_RcleanZeroesSchedule :
    (loadBlock 0 (holding false abcBlock)).fault = false ∧ (ended 64).fault = false := ⟨rfl, rfl⟩

/-- The last byte of `BUF` and the first address beyond it; no fault recorded; the one offset in range. -/
theorem witness_DestroyZeroises :
    63 < (fresh 64 false).params.bufLen ∧ (fresh 64 false).params.bufLen ≤ 64 ∧ (fresh 64 false).fault = false ∧
    0 + 64 ≤ (fresh 64 false).params.bufLen := by decide

theorem witness_SetOfGetRestores :
    (holding false abcBlock).fault = false ∧ (holding false abcBlock).ready ∧ (holding false abcBlock).life = .active ∧
    0 + 64 ≤ (holding false abcBlock).params.bufLen ∧
    (holding false abcBlock).memRead 0 64 = (holding false abcBlock).memRead 0 64 := ⟨rfl, ⟨rfl, rfl⟩, rfl, by decide, rfl⟩

/-- The clause on sequences: two blocks one by one in 64 bytes, and the same two at once in 128. -/
theorem witness_SetOfGetRestores_sequence :
    (fresh 64 false).fault = false ∧ (fresh 128 true).ready ∧ (fresh 64 false).life = .active ∧
    (fresh 64 false).engine = none ∧ (fresh 128 true).engine = none ∧ (fresh 64 false).params.wf = true ∧
    (fresh 128 true).params.wf = true ∧
    (oneByOne 0 [abcBlock, emptyBlock]).all (Batch.fits (fresh 64 false).params) = true ∧
    (allAtOnce 0 [abcBlock, emptyBlock]).all (Batch.fits (fresh 128 true).params) = true ∧
    batchesBlocks (oneByOne 0 [abcBlock, emptyBlock]) = batchesBlocks (allAtOnce 0 [abcBlock, emptyBlock]) :=
  ⟨rfl, ⟨rfl, rfl⟩, rfl, rfl, rfl, by decide, by decide, by decide, by decide, by decide⟩

theorem witness_LifecycleFollowsTable :
    ((fresh 64 false).fault = false ∧ 0 + 64 ≤ (fresh 64 false).params.bufLen ∧ (fresh 64 false).life = .active) ∧
    ((ended 64).fault = false ∧ 0 + 64 ≤ (ended 64).params.bufLen ∧ (ended 64).life = .destroyed) ∧
    (moving .reset).fault = false ∧ (moving .reset).moves = .reset :: [] := by decide

/-- The first and the last offset out of range, and a word of either kind that is illegal. -/
theorem witness_FaultCodesAndWords :
    ((fresh 64 false).fault = false ∧ 1 < 2 ^ 28 ∧ (fresh 64 false).params.bufLen < 1 + 64) ∧
    (2 ^ 28 - 1 < 2 ^ 28 ∧ (fresh (2 ^ 28) false).params.bufLen < 2 ^ 28 - 1 + 64) ∧
    decodeCommand 0x00000000 = .error .opcode ∧ decodeCommand 0x50000001 = .error .argument := by decide

theorem witness_RecordedFaultDiscardsCommands :
    faulted.fault = true ∧ decodeCommand 0x00000000 = .error .opcode ∧ 127 < faulted.params.bufLen := by decide

/-- A full state for each arm in turn: a discarded `GET`, a word discarded otherwise, `DESTROY` with a fault recorded, an illegal
word, `PROCESS` at the first offset out of range, `PROCESS` in range on a destroyed instance and on an active one, `SET`. -/
theorem witness_ChecksOnACommandWord :
    (∃ s : State, s.engine = none ∧ s.moves = .command 0x20000000 zeroQuad :: [] ∧ s.fault = true) ∧
    (∃ s : State, s.engine = none ∧ s.moves = .command 0x00000000 zeroQuad :: [] ∧ s.fault = true ∧
      (0x00000000 : Word) ≠ 0x10000000 ∧ (0x00000000 : Word) ≠ 0x60000000) ∧
    (∃ s : State, s.engine = none ∧ s.moves = .command 0x60000000 zeroQuad :: [] ∧ s.fault = true ∧
      decodeCommand 0x60000000 = .ok .destroy) ∧
    (∃ s : State, s.engine = none ∧ s.moves = .command 0x50000001 zeroQuad :: [] ∧ s.fault = false ∧
      decodeCommand 0x50000001 = .error .argument) ∧
    (∃ s : State, s.engine = none ∧ s.moves = .command 0x40000001 zeroQuad :: [] ∧ s.fault = false ∧
      decodeCommand 0x40000001 = .ok (.process 1) ∧ s.params.bufLen < 1 + 64) ∧
    (∃ s : State, s.engine = none ∧ s.moves = .command 0x40000000 zeroQuad :: [] ∧ s.fault = false ∧
      decodeCommand 0x40000000 = .ok (.process 0) ∧ 0 + 64 ≤ s.params.bufLen ∧ s.life = .destroyed) ∧
    (∃ s : State, s.engine = none ∧ s.moves = .command 0x40000000 zeroQuad :: [] ∧ s.fault = false ∧
      decodeCommand 0x40000000 = .ok (.process 0) ∧ 0 + 64 ≤ s.params.bufLen ∧ s.life = .active) ∧
    ∃ s : State, s.engine = none ∧ s.moves = .command 0x30000000 zeroQuad :: [] ∧ s.fault = false ∧
      decodeCommand 0x30000000 = .ok .set :=
  ⟨⟨{ faulted with moves := [.command 0x20000000 zeroQuad] }, by decide⟩,
   ⟨{ faulted with moves := [.command 0x00000000 zeroQuad] }, by decide⟩,
   ⟨{ faulted with moves := [.command 0x60000000 zeroQuad] }, by decide⟩,
   ⟨moving (.command 0x50000001 zeroQuad), by decide⟩,
   ⟨moving (.command 0x40000001 zeroQuad), by decide⟩,
   ⟨{ ended 64 with moves := [.command 0x40000000 zeroQuad] }, by decide⟩,
   ⟨moving (.command 0x40000000 zeroQuad), by decide⟩,
   ⟨moving (.command 0x30000000 zeroQuad), by decide⟩⟩

theorem witness_OnlyInitAndResetClearAFault :
    ∃ s u t : State, s.moves = .command 0x10000000 zeroQuad :: [] ∧ s.engine = none ∧ s.fault = true ∧
      step s = .next t ∧ t.fault = false ∧ u.moves = .reset :: [] ∧ u.fault = true :=
  ⟨{ faulted with moves := [.command 0x10000000 zeroQuad] }, { faulted with moves := [.reset] }, _,
    rfl, rfl, rfl, rfl, rfl, rfl, rfl⟩

theorem witness_FirstFaultRecordIsKept :
    ∃ s t : State, step s = .next t ∧ s.fault = true ∧ t.fault = true :=
  ⟨{ faulted with moves := [.command 0x00000000 zeroQuad] }, _, rfl, rfl, rfl⟩

theorem witness_OnlyTheUndefinedStepStops :
    (moving (.writeBuf 63 0)).hostWf = true ∧
    ({ ended 64 with moves := [.command 0x40000000 zeroQuad] } : State).hostWf = true ∧
    refusedWith (step { ended 64 with moves := [.command 0x40000000 zeroQuad] }) .processAfterDestroy = true := by decide

theorem witness_ResetLeavesTheStatedValues :
    ({ inBlock 5 1 2 3 4 with moves := [.reset] } : State).moves = .reset :: [] := rfl

theorem witness_ResetAndInitLeaveTheSameRegisters : (moving .reset).moves = .reset :: [] := rfl

/-- `BUF_LEN` at both ends of its range. -/
theorem witness_ResetMeetsTheInvariant :
    ({ bufLen := 64, autoClean := false } : Params).wf = true ∧ ({ bufLen := 2 ^ 28, autoClean := true } : Params).wf = true := by
  decide

theorem fresh_inv : (fresh 64 false).Inv :=
  { params_wf := by decide
    buf_wf := rfl
    buf_in_range := fun _ h => nomatch h
    no_fault_record := fun _ => ⟨rfl, rfl⟩
    fault_record := fun h => nomatch h
    engine_ok := fun h => absurd rfl h }

theorem witness_EveryStepKeepsTheInvariant :
    ∃ s t : State, s.Inv ∧ step s = .next t ∧ s.moves = .writeBuf 63 0xff :: [] :=
  ⟨moving (.writeBuf 63 0xff), _,
    { params_wf := by decide
      buf_wf := rfl
      buf_in_range := fun _ h => nomatch h
      no_fault_record := fun _ => ⟨rfl, rfl⟩
      fault_record := fun h => nomatch h
      engine_ok := fun h => absurd rfl h }, rfl, rfl⟩

theorem witness_NoStepChangesTheParameters : ∃ t, step (moving (.command 0x60000000 zeroQuad)) = .next t := ⟨_, rfl⟩

/-- An instruction under each clause: `GET` writes neither `H` nor `W`, `RCLEAN` not `DOUT`, a round not the record. -/
theorem witness_WritersOfEachPieceOfState :
    (∃ t, exec .get (fresh 64 false) = .next t) ∧ (∃ t, exec .rclean (fresh 64 false) = .next t) ∧
    (∃ t, exec .destroy (fresh 64 false) = .next t) ∧ (∃ t, exec .init (fresh 64 false) = .next t) ∧
    (∃ t, exec .set (fresh 64 false) = .next t) ∧ (∃ t, exec (.process 1) (fresh 64 false) = .next t) ∧
    ∃ t, exec (.rnd1 0) (inBlock 0 1 2 3 4) = .next t :=
  ⟨⟨_, rfl⟩, ⟨_, rfl⟩, ⟨_, rfl⟩, ⟨_, rfl⟩, ⟨_, rfl⟩, ⟨_, rfl⟩, ⟨_, rfl⟩⟩

/-- Reading four bytes, the last of them; writing two, the last of them, and the addresses just outside. -/
theorem witness_MemoryPrimitivesReadAndWrite :
    3 < 4 ∧ 1 < ([0xaa, 0xbb] : List Byte).length ∧ 4 < 5 ∧ 5 + ([0xaa, 0xbb] : List Byte).length ≤ 7 := by decide

/-- The last byte of `BUF`. -/
theorem witness_HostBufferAccesses :
    (moving (.writeBuf 63 0xff)).engine = none ∧ 63 < (moving (.writeBuf 63 0xff)).params.bufLen ∧
    (moving (.writeBuf 63 0xff)).moves = .writeBuf 63 0xff :: [] ∧ (moving (.readBuf 63)).moves = .readBuf 63 :: [] := by decide

/-- The first address beyond it. -/
theorem witness_NoBufferAccessBeyondTheEnd :
    (moving (.writeBuf 64 0)).engine = none ∧ (moving (.writeBuf 64 0)).params.bufLen ≤ 64 ∧
    (moving (.writeBuf 64 0)).moves = .writeBuf 64 0 :: [] ∧ (moving (.readBuf 64)).moves = .readBuf 64 :: [] := by decide

theorem witness_HostReadsTheOutputs :
    (moving .readStatus).engine = none ∧ (moving .readStatus).moves = .readStatus :: [] ∧
    (moving .readDout).moves = .readDout :: [] := by decide

theorem witness_StepRunsTheIssuedCommand :
    (moving (.command 0x40000000 zeroQuad)).engine = none ∧
    (moving (.command 0x40000000 zeroQuad)).moves = .command 0x40000000 zeroQuad :: [] ∧
    decodeCommand 0x40000000 = .ok (.process 0) := by decide

/-- A round in the middle and the last round. -/
theorem witness_StepRunsTheRoundUnderWay :
    (∃ t e e', (inBlock 16 1 2 3 4).engine = some e ∧ (inBlock 16 1 2 3 4).moves.head? ≠ some .reset ∧
      exec (decodeRound e.ri) (inBlock 16 1 2 3 4) = .next t ∧ t.engine = some e' ∧ e'.ri = e.ri) ∧
    ∃ t e e', (inBlock 63 1 2 3 4).engine = some e ∧ (inBlock 63 1 2 3 4).moves.head? ≠ some .reset ∧
      exec (decodeRound e.ri) (inBlock 63 1 2 3 4) = .next t ∧ t.engine = some e' ∧ e'.ri = e.ri :=
  ⟨⟨_, _, _, rfl, by decide, rfl, rfl, rfl⟩, ⟨_, _, _, rfl, by decide, rfl, rfl, rfl⟩⟩

theorem witness_StepRunsThePlacedWord :
    0x6fffffff < 2 ^ 32 ∧ decodeTableWord 32 0x4fffffff = some (.process 268435455) ∧ 0x4fffffff < 2 ^ 32 := by decide

theorem witness_WithoutAMoveTheStatePersists : (fresh 64 false).engine = none ∧ (fresh 64 false).moves = [] := ⟨rfl, rfl⟩

/-- Two batches, one of two blocks that end at the last byte of `BUF`, with the check. -/
theorem witness_BlocksAdvanceTheDigestState :
    ∃ s : State, s.ready ∧ s.engine = none ∧ s.params.wf = true ∧
      ([{ off := 0, blocks := [abcBlock, emptyBlock] }, { off := 3, blocks := [abcBlock] }] : List Batch).all
        (Batch.fits s.params) = true ∧
      s.moves = batchesMoves true [{ off := 0, blocks := [abcBlock, emptyBlock] }, { off := 3, blocks := [abcBlock] }] ++
        [.readDout] :=
  ⟨{ fresh 128 false with
      moves := batchesMoves true [{ off := 0, blocks := [abcBlock, emptyBlock] }, { off := 3, blocks := [abcBlock] }] ++
        [.readDout] }, ⟨rfl, rfl⟩, rfl, by decide, by decide, rfl⟩

/-- Each beginning: `INIT` on a faulted instance, reset inside a `PROCESS`, a fresh instance; on the least buffer and at the
last offset of a longer one, with the check and without. -/
theorem witness_DigestRunYieldsMd5 :
    (∃ s : State, s.params.wf = true ∧ ComputationStart.init.admits s ∧ s.fault = true ∧
      DigestPlan.wf s.params [] { start := .init, check := true, batches := oneByOne 64 (messageBlocks []) } = true ∧
      s.moves = DigestPlan.moves { start := .init, check := true, batches := oneByOne 64 (messageBlocks []) }) ∧
    (∃ s : State, s.params.wf = true ∧ ComputationStart.reset.admits s ∧ s.engine ≠ none ∧
      DigestPlan.wf s.params [0x61] { start := .reset, check := true, batches := allAtOnce 0 (messageBlocks [0x61]) } = true ∧
      s.moves = DigestPlan.moves { start := .reset, check := true, batches := allAtOnce 0 (messageBlocks [0x61]) }) ∧
    ∃ s : State, s.params.wf = true ∧ ComputationStart.constructed.admits s ∧
      DigestPlan.wf s.params [] { start := .constructed, check := false, batches := oneByOne 0 (messageBlocks []) } = true ∧
      s.moves = DigestPlan.moves { start := .constructed, check := false, batches := oneByOne 0 (messageBlocks []) } := by
  refine ⟨⟨{ faulted with moves := _ }, by decide, rfl, rfl, by decide, rfl⟩,
    ⟨{ inBlock 5 1 2 3 4 with moves := _ }, by decide, trivial, by decide, by decide, rfl⟩,
    ⟨{ fresh 64 false with moves := _ }, by decide, ⟨rfl, rfl, rfl, rfl⟩, by decide, rfl⟩⟩

/-- The last place in a buffer for one block, and for the whole of a one-block message. -/
theorem witness_BothLayoutsAreDigestPlans :
    64 + 64 ≤ ({ bufLen := 128, autoClean := false } : Params).bufLen ∧
    64 + (pad []).length ≤ ({ bufLen := 128, autoClean := false } : Params).bufLen := by decide

end Sys2Proof.Tests
end

section
/-! The datapath units (40_datapath R90, R98, R99): what the fields of a round index, the adder, the message-word index
and the rotation amounts are as natural numbers, and the obligations O7, O11 and O12. -/

namespace Sys2Proof.Machine

/-! ### The fields of a round index (R76) -/

@[simp] theorem phaseField_val (i : BitVec 6) : (phaseField i).val = i.toNat / 16 := by
  have hi : i.toNat < 64 := i.isLt
  have h : (phaseField i).val = (i.toNat >>> 4) % 4 := BitVec.extractLsb'_toNat 4 2 i
  rw [h, Nat.shiftRight_eq_div_pow]
  omega

@[simp] theorem shiftSelect_val (i : BitVec 6) : (shiftSelect i).val = i.toNat % 4 :=
  BitVec.extractLsb'_toNat 0 2 i

@[simp] theorem roundIndex_toNat (ph : Fin 4) (j : Fin 16) : (roundIndex ph j).toNat = 16 * ph.val + j.val := by
  have h : (roundIndex ph j).toNat = ph.val <<< 4 ||| j.val := BitVec.toNat_append _ _
  rw [h, ← Nat.shiftLeft_add_eq_or_of_lt j.isLt, Nat.shiftLeft_eq]
  omega

/-! ### The adder (R90) -/

@[simp] theorem add32_toNat (x y : Word) : (add32 x y).toNat = (x.toNat + y.toNat) % 2 ^ 32 := BitVec.toNat_add x y

theorem add32_comm (x y : Word) : add32 x y = add32 y x := BitVec.add_comm x y

theorem add32_assoc (x y z : Word) : add32 (add32 x y) z = add32 x (add32 y z) := BitVec.add_assoc x y z

@[simp] theorem add32_zero (x : Word) : add32 x 0 = x := BitVec.add_zero x

/-- The reductions of the partial sums do not show in the sum of four. -/
@[simp] theorem sum4_toNat (x y z u : Word) :
    (sum4 x y z u).toNat = (x.toNat + y.toNat + z.toNat + u.toNat) % 2 ^ 32 := by
  simp only [sum4, add32_toNat, Nat.mod_add_mod]

/-- Settles O7: addition of bit vectors is addition modulo 2^32, and the rule's corner cases evaluate. -/
theorem adderIsModular : Obligations.AdderIsModular :=
  ⟨add32_toNat, add32_comm, add32_assoc, sum4_toNat, add32_zero, by decide⟩

/-! ### The message-word index (R99) -/

/-- `GIDX` by the full round index: the phase select is `i div 16`, which bounds the index in each phase. -/
theorem gidx_val (i : BitVec 6) :
    (gidx i).val =
      if i.toNat < 16 then i.toNat
      else if i.toNat < 32 then (5 * i.toNat + 1) % 16
      else if i.toNat < 48 then (3 * i.toNat + 5) % 16
      else (7 * i.toNat) % 16 := by
  have hdiv := phaseField_val i
  unfold gidx
  split <;> rename_i hph
  all_goals
    rw [hph] at hdiv
    simp only [Fin.val_ofNat] at hdiv ⊢
    split_ifs <;> omega

/-- `GIDX` by the position in the phase: the multiple of 16 at which the phase begins falls away modulo 16. -/
theorem gidx_roundIndex_val (ph : Fin 4) (j : Fin 16) :
    (gidx (roundIndex ph j)).val =
      match ph with
      | 0 => j.val
      | 1 => (5 * j.val + 1) % 16
      | 2 => (3 * j.val + 5) % 16
      | 3 => (7 * j.val) % 16 := by
  rw [gidx_val, roundIndex_toNat]
  fin_cases ph <;> dsimp only <;> split_ifs <;> omega

/-- Within a phase `GIDX` is affine modulo 16 with an odd factor, so no two positions share a word. -/
theorem gidx_roundIndex_injective (ph : Fin 4) : Function.Injective fun j : Fin 16 => gidx (roundIndex ph j) := by
  intro j k h
  have hval : (gidx (roundIndex ph j)).val = (gidx (roundIndex ph k)).val := congrArg Fin.val h
  rw [gidx_roundIndex_val, gidx_roundIndex_val] at hval
  fin_cases ph <;> dsimp only at hval <;> omega

/-- Settles O11: within a phase an injective map of the sixteen positions is a bijection. -/
theorem messageIndexPermutesEachPhase : Obligations.MessageIndexPermutesEachPhase :=
  ⟨fun i => gidx_val (BitVec.ofFin i),
   fun j => ⟨gidx_roundIndex_val 0 j, gidx_roundIndex_val 1 j, gidx_roundIndex_val 2 j, gidx_roundIndex_val 3 j⟩,
   fun ph => Finite.injective_iff_bijective.mp (gidx_roundIndex_injective ph)⟩

/-! ### The rotation amounts (R98) -/

theorem srom_eq_table (ph k : Fin 4) :
    srom ph k =
      (([[7, 12, 17, 22], [5, 9, 14, 20], [4, 11, 16, 23], [6, 10, 15, 21]] : List (List Nat)).getD ph.val []).getD
        k.val 0 := by
  decide +revert

/-- `s(i)` by arithmetic on the index: its phase select is `i div 16` and its shift select `i mod 4`. -/
theorem roundShift_eq_srom (i : BitVec 6) :
    roundShift i = srom (Fin.ofNat 4 (i.toNat / 16)) (Fin.ofNat 4 i.toNat) := by
  have hphase : phaseField i = Fin.ofNat 4 (i.toNat / 16) := by
    rw [← phaseField_val, Fin.ofNat_val_eq_self]
  have hshift : shiftSelect i = Fin.ofNat 4 i.toNat := Fin.ext (shiftSelect_val i)
  rw [roundShift, hphase, hshift]

/-- Settles O12: the sixteen entries by evaluation, the amount of a round by its fields. -/
theorem shiftAmountsByPhase : Obligations.ShiftAmountsByPhase :=
  ⟨srom_eq_table, fun i => roundShift_eq_srom (BitVec.ofFin i)⟩

end Sys2Proof.Machine
end

section
/-! The round micro-operations (41_compress R124, R133 to R136): the micro-operation of a round index is the round
`selectedRound`, the selected round is the generic step, and the obligations O14 and O15. -/

namespace Sys2Proof.Machine

/-! ### A round index and its fields (R76) -/

@[simp] theorem positionField_val (i : BitVec 6) : (positionField i).val = i.toNat % 16 :=
  BitVec.extractLsb'_toNat 0 4 i

theorem phaseField_eq_ofNat (i : BitVec 6) : phaseField i = Fin.ofNat 4 (i.toNat / 16) := by
  rw [← phaseField_val, Fin.ofNat_val_eq_self]

@[simp] theorem roundIndex_fields (i : BitVec 6) : roundIndex (phaseField i) (positionField i) = i := by
  apply BitVec.eq_of_toNat_eq
  rw [roundIndex_toNat, phaseField_val, positionField_val]
  omega

theorem roundIndex_eq_ofNat (ph : Fin 4) (j : Fin 16) : roundIndex ph j = BitVec.ofNat 6 (16 * ph.val + j.val) := by
  rw [← roundIndex_toNat, BitVec.ofNat_toNat, BitVec.setWidth_eq]

/-! ### The selected round (R121 step 7, R124) -/

theorem onEngine_some {f : Engine → Engine} {s : State} {e : Engine} (h : s.engine = some e) :
    onEngine f s = .next { s with engine := some (f e) } := by
  simp only [onEngine, h]

/-- The decoder and the sequencer read the same phase and position from a round index. -/
theorem exec_decodeRound (i : BitVec 6) (s : State) : exec (decodeRound i) s = onEngine (selectedRound i s.w) s := by
  unfold decodeRound selectedRound
  generalize phaseField i = ph
  match ph with
  | 0 => rfl
  | 1 => rfl
  | 2 => rfl
  | 3 => rfl

/-- Each of the four rounds uses its phase's function and the index put together from its phase and its position. -/
theorem selectedRound_eq_roundWith (i : BitVec 6) (w : Vector Word 16) (e : Engine) :
    selectedRound i w e = roundWith (rfsel (phaseField i) e.b e.c e.d) i w e := by
  have hfields := roundIndex_fields i
  unfold selectedRound
  split <;> rename_i hph <;> rw [hph] at hfields ⊢
  · rw [round1, hfields, rfsel]
  · rw [round2, hfields, rfsel]
  · rw [round3, hfields, rfsel]
  · rw [round4, hfields, rfsel]

/-- Settles O15: the selected round is the generic step, its function and its amount chosen by `i div 16` and `i mod 4`. -/
theorem everyRoundIsTheGenericStep : Obligations.EveryRoundIsTheGenericStep := by
  intro i s e he
  have hround : selectedRound i s.w e = roundWith (rfsel (Fin.ofNat 4 (i.toNat / 16)) e.b e.c e.d) i s.w e := by
    rw [selectedRound_eq_roundWith, phaseField_eq_ofNat]
  rw [exec_decodeRound, onEngine_some he, hround]
  simp only [roundWith, roundWord, roundShift_eq_srom]

/-! ### The rounds by phase and position (R133 to R136) -/

/-- The step of round `i = 16 × ph + j`, given the message word `g` and the amount `n` that the rule of its phase names. -/
theorem roundWith_roundIndex (f : Word) (w : Vector Word 16) (e : Engine) {ph : Fin 4} {j g : Fin 16} {i n : Nat}
    (hi : 16 * ph.val + j.val = i) (hg : (gidx (roundIndex ph j)).val = g.val) (hn : srom ph (Fin.ofNat 4 i) = n) :
    roundWith f (roundIndex ph j) w e =
      { e with
        a := e.d, d := e.c, c := e.b
        b := add32 e.b (rotl32 (sum4 f e.a (krom (BitVec.ofNat 6 i)) w[g]) n)
        t := sum4 f e.a (krom (BitVec.ofNat 6 i)) w[g] } := by
  have hshift : roundShift (roundIndex ph j) = n := by
    have hphase : (16 * ph.val + j.val) / 16 = ph.val := by omega
    rw [roundShift_eq_srom, roundIndex_toNat, hphase, Fin.ofNat_val_eq_self, hi, hn]
  have hkrom : krom (roundIndex ph j) = krom (BitVec.ofNat 6 i) := by rw [roundIndex_eq_ofNat, hi]
  simp only [roundWith, roundWord, hkrom, hshift, Fin.ext hg]

/-- Settles O14: each micro-operation is `roundWith` on the working registers, with its phase's row of the tables. -/
theorem roundMicroOperationsComplete : Obligations.RoundMicroOperationsComplete := by
  intro j s e he
  refine ⟨?_, ?_, ?_, ?_⟩ <;> intro i f t n <;> refine (onEngine_some he).trans ?_
  · have hword : (gidx (roundIndex 0 j)).val = j.val := gidx_roundIndex_val 0 j
    rw [round1, roundWith_roundIndex (rf1 e.b e.c e.d) s.w e (Nat.zero_add _) hword (srom_eq_table 0 (Fin.ofNat 4 i))]
    rfl
  · have hword : (gidx (roundIndex 1 j)).val = (Fin.ofNat 16 (5 * i + 1)).val :=
      (gidx_roundIndex_val 1 j).trans (show (5 * j.val + 1) % 16 = (5 * (16 + j.val) + 1) % 16 by omega)
    rw [round2, roundWith_roundIndex (rf2 e.b e.c e.d) s.w e rfl hword (srom_eq_table 1 (Fin.ofNat 4 i))]
    rfl
  · have hword : (gidx (roundIndex 2 j)).val = (Fin.ofNat 16 (3 * i + 5)).val :=
      (gidx_roundIndex_val 2 j).trans (show (3 * j.val + 5) % 16 = (3 * (32 + j.val) + 5) % 16 by omega)
    rw [round3, roundWith_roundIndex (rf3 e.b e.c e.d) s.w e rfl hword (srom_eq_table 2 (Fin.ofNat 4 i))]
    rfl
  · have hword : (gidx (roundIndex 3 j)).val = (Fin.ofNat 16 (7 * i)).val :=
      (gidx_roundIndex_val 3 j).trans (show (7 * j.val) % 16 = (7 * (48 + j.val)) % 16 by omega)
    rw [round4, roundWith_roundIndex (rf4 e.b e.c e.d) s.w e rfl hword (srom_eq_table 3 (Fin.ofNat 4 i))]
    rfl

end Sys2Proof.Machine
end

section
/-! `PROCESS` (41_compress R121 to R131): the 64 turns of its loop are the rounds of `COMPRESS` (R138), what the command
answers after each of its checks, and the obligations O18, O19 and O20. -/

namespace Sys2Proof.Machine

/-! ### The block in `BUF` (R51, R122) -/

theorem State.memRead_congr {s t : State} (hb : t.buf = s.buf) (hd : t.bufDraw = s.bufDraw) (addr n : Nat) :
    t.memRead addr n = s.memRead addr n := by
  induction n generalizing addr with
  | zero => rfl
  | succ n ih =>
    have hbyte : t.bufByte addr = s.bufByte addr := State.bufByte_congr (by rw [hb]) hd
    simp only [State.memRead, hbyte, ih]

theorem blockByte_memRead (s : State) (addr : Nat) {n k : Nat} (hk : k < n) :
    blockByte (s.memRead addr n) k = s.bufByte (addr + k) := by
  induction n generalizing addr k with
  | zero => omega
  | succ n ih =>
    cases k with
    | zero => rfl
    | succ k =>
      calc blockByte (s.memRead addr (n + 1)) (k + 1)
        _ = blockByte (s.memRead (addr + 1) n) k := rfl
        _ = s.bufByte (addr + 1 + k) := ih (addr + 1) (by omega)
        _ = s.bufByte (addr + (k + 1)) := by rw [Nat.add_assoc, Nat.add_comm 1 k]

/-- The words the machine loads from `BUF` are the schedule of the block as a list of bytes (R122). -/
theorem schedule_memRead (s : State) (off : Nat) : schedule (s.memRead off 64) = scheduleAt s off := by
  unfold schedule scheduleAt wordAt
  refine congrArg Vector.ofFn (funext fun j => ?_)
  have hj : j.val < 16 := j.isLt
  simp (disch := omega) only [blockByte_memRead, Nat.add_assoc]

theorem scheduleAt_getElem (s : State) (off : Nat) (j : Fin 16) : (scheduleAt s off)[j] = wordAt s (off + 4 * j.val) :=
  Vector.getElem_ofFn j.isLt

/-! ### The loop of rounds (R121 steps 7 to 9, R125) -/

/-- The four working words of the registers. -/
def Engine.quad (e : Engine) : Quad := { a := e.a, b := e.b, c := e.c, d := e.d }

theorem selectedRound_ri (i : BitVec 6) (w : Vector Word 16) (e : Engine) : (selectedRound i w e).ri = e.ri := by
  rw [selectedRound_eq_roundWith]
  rfl

theorem selectedRound_quad (i : BitVec 6) (w : Vector Word 16) (e : Engine) :
    (selectedRound i w e).quad = roundStep w e.quad i := by
  rw [selectedRound_eq_roundWith]
  rfl

theorem roundTurn_of_last {s : State} {e : Engine} (he : s.engine = some e) (hlast : e.ri = 63) :
    roundTurn s = finishBlock (selectedRound e.ri s.w e) s := by
  have hri : (selectedRound e.ri s.w e).ri = 63 := (selectedRound_ri e.ri s.w e).trans hlast
  simp only [roundTurn, he, advance, hri, if_true, finishBlock]

theorem roundTurn_of_not_last {s : State} {e : Engine} (he : s.engine = some e) (hlast : e.ri ≠ 63) :
    roundTurn s = { s with engine := some { selectedRound e.ri s.w e with ri := e.ri + 1 } } := by
  simp only [roundTurn, he, advance, selectedRound_ri, if_neg hlast]

/-- With `n` rounds still to come, `n` turns run them all and end the block. -/
theorem roundTurns_eq_finished (n : Nat) {s : State} {e : Engine} (he : s.engine = some e) (hn : e.ri.toNat + n = 64) :
    roundTurns n s =
      s.withBlock (addQuad s.h (roundsFrom s.w n e.ri e.quad))
        (if s.params.autoClean then zeroSchedule else s.w) none := by
  induction n generalizing s e with
  | zero =>
    have hri : e.ri.toNat < 64 := e.ri.isLt
    omega
  | succ n ih =>
    have hquad := selectedRound_quad e.ri s.w e
    by_cases hlast : e.ri = 63
    · have hzero : n = 0 := by bv_omega
      subst hzero
      rw [roundTurns, roundTurn_of_last he hlast, roundsFrom, ← hquad]
      rfl
    · have hnext : (e.ri + 1).toNat + n = 64 := by bv_omega
      rw [roundTurns, roundTurn_of_not_last he hlast, ih rfl hnext, roundsFrom, ← hquad]
      rfl

@[simp] theorem startEngine_quad (s : State) : (startEngine s).quad = s.h := rfl
@[simp] theorem startEngine_ri (s : State) : (startEngine s).ri = 0 := rfl

theorem loadBlock_eq_withBlock (off : Nat) (s : State) :
    loadBlock off s = s.withBlock s.h (scheduleAt s off) (some (startEngine s)) := rfl

@[simp] theorem State.withBlock_withBlock (s : State) (h h' : Quad) (w w' : Vector Word 16) (e e' : Option Engine) :
    (s.withBlock h w e).withBlock h' w' e' = s.withBlock h' w' e' := rfl

/-- A block, from its load to its end, is `COMPRESS` on `H` (R121 steps 4 to 9, R138). -/
theorem roundTurns_loadBlock (off : Nat) (s : State) :
    roundTurns 64 (loadBlock off s) =
      s.withBlock (compress s.h (s.memRead off 64))
        (if s.params.autoClean then zeroSchedule else scheduleAt s off) none := by
  rw [roundTurns_eq_finished 64 (loadBlock_engine off s) rfl, compress, schedule_memRead, startEngine_ri,
    startEngine_quad, loadBlock_params, loadBlock_h, loadBlock_w, loadBlock_eq_withBlock, State.withBlock_withBlock]

/-! ### The answers of `PROCESS` (R121 steps 1 to 3, R128 to R130) -/

theorem execProcess_of_fault (off : Nat) {s : State} (hf : s.fault = true) : execProcess off s = .next s :=
  unlessFaulted_shut hf

theorem execProcess_of_out_of_range {off : Nat} {s : State} (hf : s.fault = false) (hoff : s.params.bufLen < off + 64) :
    execProcess off s = .next (raise .blockRange (processWord off) s) := by
  have hrange : ¬ blockInRange off s = true := by simpa [blockInRange] using hoff
  rw [execProcess, unlessFaulted_open hf, if_neg hrange]

theorem execProcess_of_destroyed {off : Nat} {s : State} (hf : s.fault = false) (hoff : off + 64 ≤ s.params.bufLen)
    (hlife : s.life = .destroyed) : execProcess off s = .refused .processAfterDestroy := by
  have hrange : blockInRange off s = true := decide_eq_true hoff
  rw [execProcess, unlessFaulted_open hf, if_pos hrange, hlife]

theorem execProcess_of_ready {off : Nat} {s : State} (hs : s.ready) (hoff : off + 64 ≤ s.params.bufLen) :
    execProcess off s =
      .next (s.withBlock (compress s.h (s.memRead off 64))
        (if s.params.autoClean then zeroSchedule else scheduleAt s off) none) := by
  obtain ⟨hlife, hf⟩ := hs
  have hrange : blockInRange off s = true := decide_eq_true hoff
  rw [execProcess, unlessFaulted_open hf, if_pos hrange, hlife, ← roundTurns_loadBlock]

/-- Settles O18: the three answers of `PROCESS` where it does not run. -/
theorem processChecksComeFirst : Obligations.ProcessChecksComeFirst := fun off _ =>
  ⟨execProcess_of_fault off, execProcess_of_out_of_range, execProcess_of_destroyed⟩

/-- Settles O19: the registers a block leaves are a function of `H`, the 64 bytes and `AUTO_CLEAN`. -/
theorem processDependsOnlyOnHashAndBlock : Obligations.ProcessDependsOnlyOnHashAndBlock := by
  intro off₁ off₂ s₁ s₂ hs₁ hs₂ hoff₁ hoff₂ hh hblock
  refine ⟨_, _, execProcess_of_ready hs₁ hoff₁, execProcess_of_ready hs₂ hoff₂, ?_, ?_, ?_, ?_⟩
  · rw [State.withBlock_h, State.withBlock_h, hh, hblock]
  · intro hclean
    have hschedule : scheduleAt s₁ off₁ = scheduleAt s₂ off₂ := by
      rw [← schedule_memRead, ← schedule_memRead, hblock]
    rw [State.withBlock_w, State.withBlock_w, hclean, hschedule]
  · rw [State.withBlock_fault, hs₁.2]
  · rw [State.withBlock_fault, hs₂.2]

/-! ### The parameter `AUTO_CLEAN` (R127) -/

/-- The same machine with the parameter `AUTO_CLEAN` set to `clean`. -/
def State.setAutoClean (s : State) (clean : Bool) : State := { s with params := { s.params with autoClean := clean } }

@[simp] theorem State.memRead_setAutoClean (s : State) (clean : Bool) (addr n : Nat) :
    (s.setAutoClean clean).memRead addr n = s.memRead addr n :=
  State.memRead_congr (s := s) (t := s.setAutoClean clean) rfl rfl addr n

theorem execProcess_setAutoClean {off : Nat} {s : State} (hs : s.ready) (hoff : off + 64 ≤ s.params.bufLen)
    (clean : Bool) :
    execProcess off (s.setAutoClean clean) =
      .next ((s.setAutoClean clean).withBlock (compress s.h (s.memRead off 64))
        (if clean then zeroSchedule else scheduleAt s off) none) := by
  rw [execProcess_of_ready (s := s.setAutoClean clean) hs hoff, State.memRead_setAutoClean]
  rfl

/-- Settles O20: `AUTO_CLEAN` chooses the `W` a block leaves and appears nowhere else in what it leaves. -/
theorem autoCleanOnlyClearsSchedule : Obligations.AutoCleanOnlyClearsSchedule := by
  intro off s hs hoff
  refine ⟨_, _, execProcess_setAutoClean hs hoff true, execProcess_setAutoClean hs hoff false, ?_, ?_, ?_, ?_⟩
  · exact fun j => Vector.getElem_replicate j.isLt
  · exact scheduleAt_getElem s off
  · rw [State.withBlock_h, State.withBlock_h]
  · rfl

end Sys2Proof.Machine
end

section
/-! The commands of the digest state adapter (42_state_adapter R140 to R144): what the two zero fills leave, what each
command answers, and the obligations O23 to O27. -/

namespace Sys2Proof.Machine

/-! ### The zero fills of `W` and `BUF` (R52, R143, R144) -/

@[simp] theorem zeroSchedule_getElem (j : Fin 16) : zeroSchedule[j] = 0 := Vector.getElem_replicate j.isLt

/-- The fill reaches exactly the addresses below `BUF_LEN`. -/
theorem State.zeroBuf_read (s : State) (a : Nat) :
    s.zeroBuf.buf.read a = if a < s.params.bufLen then some 0 else s.buf.read a := by
  simp only [State.zeroBuf_buf, Memory.read_writeBytes, List.length_replicate, List.getElem_replicate, Nat.zero_le,
    Nat.zero_add, true_and, dite_eq_ite]

/-! ### `INIT` (R140) -/

@[simp] theorem State.construct_construct (s : State) : s.construct.construct = s.construct := rfl

/-- Settles O23: `INIT` answers the constructed computation, and constructing twice is constructing once. -/
theorem initConstructs : Obligations.InitConstructs := fun s =>
  ⟨s.construct, rfl, rfl, congrArg Host.Outcome.next s.construct_construct⟩

/-! ### `RCLEAN` (R143) -/

@[simp] theorem State.clearSchedule_clearSchedule (s : State) : s.clearSchedule.clearSchedule = s.clearSchedule := rfl

theorem execRclean_of_no_fault {s : State} (hf : s.fault = false) : execRclean s = .next s.clearSchedule :=
  unlessFaulted_open hf

/-- Settles O26: `RCLEAN` answers the cleared schedule, and the cleared state, whose fault record is the old one, again. -/
theorem rcleanZeroesSchedule : Obligations.RcleanZeroesSchedule := fun s hf =>
  have hagain : execRclean s.clearSchedule = .next s.clearSchedule := by
    rw [execRclean_of_no_fault (s := s.clearSchedule) hf, State.clearSchedule_clearSchedule]
  ⟨s.clearSchedule, execRclean_of_no_fault hf, zeroSchedule_getElem, rfl, hagain⟩

/-! ### `SET` and its operands (R9, R142) -/

theorem trunc32_toNat (v : Int) : ((trunc32 v).toNat : Int) = v % 2 ^ 32 := by
  have hnonneg : 0 ≤ v % 2 ^ 32 := Int.emod_nonneg v (by decide)
  calc ((trunc32 v).toNat : Int)
    _ = ((v % 2 ^ 32).toNat : Int) := congrArg Nat.cast (BitVec.toNat_ofInt v)
    _ = v % 2 ^ 32 := Int.toNat_of_nonneg hnonneg

@[simp] theorem trunc32_word (x : Word) : trunc32 x.toNat = x := by
  rw [trunc32, BitVec.ofInt_natCast, BitVec.ofNat_toNat, BitVec.setWidth_eq]

/-- The operand port has 32 bits, so the reduction of what stands on it loses nothing. -/
@[simp] theorem setOperands_eq_din (s : State) : setOperands s = s.din := by
  simp only [setOperands, truncQuad, trunc32_word]

theorem execSet_of_no_fault {s : State} (hf : s.fault = false) : execSet s = .next { s with h := s.din } := by
  rw [execSet, unlessFaulted_open hf, setOperands_eq_din]

/-- Settles O25: the port's words are stored as they stand, any integer is reduced, and V63 evaluates. -/
theorem setStoresTruncatedOperands : Obligations.SetStoresTruncatedOperands :=
  ⟨fun _ => execSet_of_no_fault, trunc32_toNat, by decide⟩

/-! ### `GET` and `DESTROY` (R141, R144) -/

theorem execGet_of_no_fault {s : State} (hf : s.fault = false) : execGet s = .next { s with dout := s.h } :=
  unlessFaulted_open hf

/-- What `DESTROY` leaves. -/
def State.zeroised (s : State) : State := { s.zeroBuf with h := zeroQuad, w := zeroSchedule, life := .destroyed }

theorem execDestroy_eq (s : State) : execDestroy s = .next s.zeroised := rfl

@[simp] theorem State.zeroised_params (s : State) : s.zeroised.params = s.params := rfl
@[simp] theorem State.zeroised_h (s : State) : s.zeroised.h = zeroQuad := rfl
@[simp] theorem State.zeroised_w (s : State) : s.zeroised.w = zeroSchedule := rfl
@[simp] theorem State.zeroised_life (s : State) : s.zeroised.life = .destroyed := rfl
@[simp] theorem State.zeroised_fault (s : State) : s.zeroised.fault = s.fault := rfl

/-- Everything but `H`, `W`, `LIFE` and `BUF` is as before, the fault record included. -/
theorem State.zeroised_frame (s : State) :
    s.zeroised = { s with h := s.zeroised.h, w := s.zeroised.w, life := s.zeroised.life, buf := s.zeroised.buf } := rfl

theorem State.zeroised_read_of_lt {s : State} {a : Nat} (ha : a < s.params.bufLen) :
    s.zeroised.buf.read a = some 0 :=
  (s.zeroBuf_read a).trans (if_pos ha)

theorem State.zeroised_read_of_le {s : State} {a : Nat} (ha : s.params.bufLen ≤ a) :
    s.zeroised.buf.read a = s.buf.read a :=
  (s.zeroBuf_read a).trans (if_neg (Nat.not_lt.mpr ha))

/-- The second of two fills finds zeros below `BUF_LEN` and reaches nothing beyond. -/
theorem State.zeroised_zeroised_read (s : State) (a : Nat) :
    s.zeroised.zeroised.buf.read a = s.zeroised.buf.read a := by
  rcases Nat.lt_or_ge a s.params.bufLen with ha | ha
  · rw [zeroised_read_of_lt (s := s.zeroised) ha, zeroised_read_of_lt ha]
  · exact zeroised_read_of_le (s := s.zeroised) ha

/-- A second `DESTROY` finds the registers as the first has left them. -/
theorem State.zeroised_zeroised_frame (s : State) :
    s.zeroised.zeroised = { s.zeroised with buf := s.zeroised.zeroised.buf } := rfl

theorem execGet_zeroised {s : State} (hf : s.fault = false) :
    execGet s.zeroised = .next { s.zeroised with dout := zeroQuad } :=
  execGet_of_no_fault (s.zeroised_fault.trans hf)

/-- Settles O24: with no fault recorded the gate lets `GET` through, before and after a `DESTROY`. -/
theorem getDeliversSnapshot : Obligations.GetDeliversSnapshot := fun s hf =>
  ⟨execGet_of_no_fault hf, s.zeroised, execDestroy_eq s, execGet_zeroised hf⟩

/-- Settles O27: `DESTROY` always answers the zeroised state, whose bytes are those of the zero fill. -/
theorem destroyZeroises : Obligations.DestroyZeroises := by
  intro s
  refine ⟨s.zeroised, execDestroy_eq s, s.zeroised_h, zeroSchedule_getElem, s.zeroised_life, ?_, ?_, s.zeroised_frame,
    ?_, ?_⟩
  · intro a ha
    have hread := State.zeroised_read_of_lt ha
    exact ⟨hread, State.bufByte_of_read hread⟩
  · exact fun a => State.zeroised_read_of_le
  · exact ⟨s.zeroised.zeroised, execDestroy_eq s.zeroised, s.zeroised_zeroised_frame, s.zeroised_zeroised_read⟩
  · intro hf
    refine ⟨execGet_zeroised hf, fun off hoff => ?_⟩
    exact execProcess_of_destroyed (s.zeroised_fault.trans hf) hoff s.zeroised_life

end Sys2Proof.Machine
end

section
/-! The exception (60_exceptions R161, R166 to R168): the fault record as the host reads it, what keeps it while a fault
is recorded, the two ways out of the faulted condition, and the obligations O31 and O34. -/

namespace Sys2Proof.Machine

/-! ### The fields of `STATUS` and the word in `FINFO` (R30, R31, R161) -/

theorem State.status_fault (s : State) : s.status.getLsbD 1 = s.fault := by
  simp only [State.status, BitVec.getLsbD_append]
  simp

theorem State.status_fcause (s : State) : s.status.extractLsb' 2 2 = s.fcause.code := by
  rw [State.status, BitVec.extractLsb'_append_eq_of_add_le (by decide), BitVec.extractLsb'_append_eq_left]

theorem processWord_toNat {off : Nat} (h : off < 2 ^ 28) : (processWord off).toNat = 0x40000000 + off := by
  rw [processWord, BitVec.toNat_ofNat, Nat.mod_eq_of_lt]
  omega

theorem issueCommand_of_illegal {cw : Word} {r : IllegalWord} (hcw : decodeCommand cw = .error r) (din : Quad) {s : State}
    (hf : s.fault = false) : issueCommand cw din s = .next (raise .illegalCmd cw { s with din := din }) := by
  simp only [issueCommand, hcw, illegalCommand, hf, Bool.false_eq_true, if_false]

/-- Settles O31: either check answers fault entry, whose record `STATUS` and `FINFO` show. -/
theorem faultCodesAndWords : Obligations.FaultCodesAndWords := by
  refine ⟨fun off s hf hlt hoff => ?_, fun cw din r s hf hcw => ?_⟩
  · exact ⟨_, execProcess_of_out_of_range hf hoff, State.status_fault _, State.status_fcause _, processWord_toNat hlt⟩
  · exact ⟨_, issueCommand_of_illegal hcw din hf, State.status_fault _, State.status_fcause _, rfl⟩

/-! ### The command word of `INIT` (R70, R71) -/

theorem commandWord_fields (cw : Word) : commandWord (opField cw) (argField cw) = cw :=
  (BitVec.extractLsb'_append_extractLsb'_eq_extractLsb' rfl).trans BitVec.extractLsb'_eq_self

theorem noArgument_ok {i i' : Instr} {arg : BitVec 28} (h : noArgument i arg = .ok i') : arg = 0 ∧ i' = i := by
  unfold noArgument at h
  split at h
  · injection h with h
    exact ⟨‹_›, h.symm⟩
  · cases h

/-- One word stands for `INIT` and no other. -/
theorem eq_initWord_of_decodeCommand {cw : Word} (h : decodeCommand cw = .ok .init) : cw = 0x10000000 := by
  unfold decodeCommand at h
  split at h
  case h_1 hop =>
    have hop : opField cw = 1 := BitVec.eq_of_toNat_eq hop
    have harg : argField cw = 0 := (noArgument_ok h).1
    rw [← commandWord_fields cw, hop, harg]
    decide
  case h_2 | h_3 | h_5 | h_6 => cases (noArgument_ok h).2
  case h_4 | h_7 => cases h

/-! ### What keeps the fault record (R166, R168) -/

/-- The fault record: `STATUS.FAULT`, `STATUS.FCAUSE` and `FINFO` (R30 to R32). -/
def State.faultRecord (s : State) : Bool × FCause × Word := (s.fault, s.fcause, s.finfo)

theorem State.fault_of_faultRecord {s t : State} (h : t.faultRecord = s.faultRecord) : t.fault = s.fault :=
  congrArg Prod.fst h

/-- While a fault is recorded a gated command keeps the record if what is left of it when discarded does. -/
theorem unlessFaulted_faultRecord {s d t : State} {r : Host.Outcome State Fault Refusal}
    (h : unlessFaulted s d r = .next t) (hf : s.fault = true) (hd : d.faultRecord = s.faultRecord) :
    t.faultRecord = s.faultRecord := by
  rw [unlessFaulted_shut hf] at h
  injection h with h
  rw [← h, hd]

theorem onEngine_faultRecord {f : Engine → Engine} {s t : State} (h : onEngine f s = .next t) :
    t.faultRecord = s.faultRecord := by
  obtain ⟨e, -, rfl⟩ := onEngine_next h
  rfl

theorem advance_faultRecord (s : State) : (advance s).faultRecord = s.faultRecord := by
  obtain ⟨h, w, e, heq⟩ := advance_eq s
  rw [heq]
  rfl

/-- Every instruction but `INIT` is discarded, or is `DESTROY`, or is a round: none of them writes the record. -/
theorem exec_faultRecord {i : Instr} {s t : State} (h : exec i s = .next t) (hf : s.fault = true) (hi : i ≠ .init) :
    t.faultRecord = s.faultRecord := by
  cases i with
  | init => exact absurd rfl hi
  | get | set | process | rclean => exact unlessFaulted_faultRecord h hf rfl
  | destroy => rw [execDestroy_next h]; rfl
  | rnd1 | rnd2 | rnd3 | rnd4 => exact onEngine_faultRecord h

theorem illegalCommand_of_fault (cw : Word) {s : State} (hf : s.fault = true) : illegalCommand cw s = s := if_pos hf

theorem issueCommand_faultRecord {cw : Word} {din : Quad} {s t : State} (h : issueCommand cw din s = .next t)
    (hf : s.fault = true) (hcw : cw ≠ 0x10000000) : t.faultRecord = s.faultRecord := by
  rcases issueCommand_next h with ⟨i, hi, hexec⟩ | ⟨r, -, rfl⟩
  · have hne : i ≠ .init := by
      rintro rfl
      exact hcw (eq_initWord_of_decodeCommand hi)
    exact exec_faultRecord (s := { s with din := din }) hexec hf hne
  · rw [illegalCommand_of_fault cw (s := { s with din := din }) hf]
    rfl

theorem hostMove_faultRecord {mv : HostMove} {s t : State} (h : hostMove mv s = .next t) (hf : s.fault = true)
    (hreset : mv ≠ .reset) (hinit : ∀ din, mv ≠ .command 0x10000000 din) : t.faultRecord = s.faultRecord := by
  cases mv with
  | writeBuf | readBuf =>
    obtain ⟨-, rfl⟩ := ifBufHas_next h
    rfl
  | command cw din => exact issueCommand_faultRecord h hf fun hcw => hinit din (by rw [hcw])
  | readStatus | readDout => cases h; rfl
  | reset => exact absurd rfl hreset

theorem microStep_faultRecord {ri : BitVec 6} {s t : State} (h : microStep ri s = .next t) :
    t.faultRecord = s.faultRecord := by
  obtain ⟨u, hu, rfl⟩ := microStep_next h
  rw [exec_decodeRound] at hu
  rw [advance_faultRecord, onEngine_faultRecord hu]

/-- A step from a faulted state is a reset, runs the command word of `INIT`, or keeps the record (R167, R168). -/
theorem step_of_fault {s t : State} (h : step s = .next t) (hf : s.fault = true) :
    (∃ rest, s.moves = .reset :: rest) ∨ (∃ din rest, s.moves = .command 0x10000000 din :: rest) ∨
      t.faultRecord = s.faultRecord := by
  rcases step_next h with ⟨rest, hm, -⟩ | ⟨e, -, -, hround⟩ | ⟨mv, rest, -, hm, hreset, hmove⟩ | ⟨-, -, rfl⟩
  · exact .inl ⟨rest, hm⟩
  · exact .inr (.inr (microStep_faultRecord hround))
  · by_cases hinit : ∃ din, mv = .command 0x10000000 din
    · obtain ⟨din, rfl⟩ := hinit
      exact .inr (.inl ⟨din, rest, hm⟩)
    · exact .inr (.inr (hostMove_faultRecord (s := { s with moves := rest }) hmove hf hreset (not_exists.mp hinit)))
  · exact .inr (.inr rfl)

/-! ### The two ways out (R140, R167, R190) -/

theorem step_of_reset {s : State} {rest : List HostMove} (hm : s.moves = .reset :: rest) :
    step s = .next (resetEvent { s with moves := rest }) := by
  simp only [step, stepOnce, hm, hostMove]

theorem step_of_command {s : State} {cw : Word} {din : Quad} {rest : List HostMove} (he : s.engine = none)
    (hm : s.moves = .command cw din :: rest) : step s = issueCommand cw din { s with moves := rest } := by
  simp only [step, stepOnce, hm, he, hostMove]

theorem issueCommand_init (din : Quad) (s : State) :
    issueCommand 0x10000000 din s = .next { s with din := din }.construct := rfl

/-- Settles O34: any other step keeps the fault record, and what reset and `INIT` leave has no fault recorded. -/
theorem onlyInitAndResetClearAFault : Obligations.OnlyInitAndResetClearAFault := by
  refine ⟨fun s t hstep hf hclear => ?_, fun s rest hm => ?_, fun s din rest he hm => ?_⟩
  · rcases step_of_fault hstep hf with hreset | hinit | hkeep
    · exact .inl hreset
    · exact .inr hinit
    · have hfault : t.fault = true := (State.fault_of_faultRecord hkeep).trans hf
      simp [hfault] at hclear
  · exact ⟨_, step_of_reset hm, resetEvent_fault _⟩
  · exact ⟨_, (step_of_command he hm).trans (issueCommand_init din _), State.construct_fault _⟩

end Sys2Proof.Machine
end

section
/-! The encodings (30_encoding R70 to R76): the fields of a command word and of a round index, which words decode and to
what, and the obligations O1 to O6. -/

namespace Sys2Proof.Machine

/-! ### The fields of a word (R70, R76) -/

@[simp] theorem opField_commandWord (op : BitVec 4) (arg : BitVec 28) : opField (commandWord op arg) = op :=
  BitVec.extractLsb'_append_eq_left

@[simp] theorem argField_commandWord (op : BitVec 4) (arg : BitVec 28) : argField (commandWord op arg) = arg :=
  BitVec.extractLsb'_append_eq_right

theorem opField_toNat (cw : Word) : (opField cw).toNat = cw.toNat / 2 ^ 28 := by
  have hcw : cw.toNat < 2 ^ 32 := cw.isLt
  have hfield : (opField cw).toNat = (cw.toNat >>> 28) % 2 ^ 4 := BitVec.extractLsb'_toNat 28 4 cw
  rw [hfield, Nat.shiftRight_eq_div_pow]
  omega

theorem argField_toNat (cw : Word) : (argField cw).toNat = cw.toNat % 2 ^ 28 := BitVec.extractLsb'_toNat 0 28 cw

theorem argField_eq_zero_iff (cw : Word) : argField cw = 0 ↔ cw.toNat % 2 ^ 28 = 0 := by
  rw [← argField_toNat]
  exact BitVec.toNat_eq

@[simp] theorem phaseField_roundIndex (ph : Fin 4) (j : Fin 16) : phaseField (roundIndex ph j) = ph := by
  apply Fin.ext
  rw [phaseField_val, roundIndex_toNat]
  omega

@[simp] theorem positionField_roundIndex (ph : Fin 4) (j : Fin 16) : positionField (roundIndex ph j) = j := by
  apply Fin.ext
  rw [positionField_val, roundIndex_toNat]
  omega

/-! ### From an instruction to its word and back (R71, R72, R76) -/

theorem decodeCommand_process (arg : BitVec 28) : decodeCommand (commandWord 0x4 arg) = .ok (.process arg.toNat) := by
  simp [decodeCommand]

/-- Settles O2: the five words without an argument evaluate; the fields of a word put together are the ones put in, and
an `off` below 2^28 is its low 28 bits. -/
theorem decodeOfEncode : Obligations.DecodeOfEncode := by
  intro i hi
  cases i with
  | init | get | set | rclean | destroy => decide
  | process off =>
    have hoff : off < 2 ^ 28 := of_decide_eq_true hi
    rw [encode, decode, decodeCommand_process, BitVec.toNat_ofNat, Nat.mod_eq_of_lt hoff]
  | rnd1 | rnd2 | rnd3 | rnd4 => simp [encode, decode, decodeRound]

theorem commandWord_of_fields {cw : Word} {op : BitVec 4} {arg : BitVec 28} (hop : (opField cw).toNat = op.toNat)
    (harg : argField cw = arg) : commandWord op arg = cw := by
  rw [← BitVec.eq_of_toNat_eq hop, ← harg, commandWord_fields]

/-- What a command word decodes to is a well-formed command, whose encoding is that word. -/
theorem decodeCommand_ok {cw : Word} {i : Instr} (h : decodeCommand cw = .ok i) :
    isCommand i = true ∧ i.wf = true ∧ encode i = .cmd cw := by
  unfold decodeCommand at h
  split at h
  case h_4 hop =>
    injection h with h
    subst h
    refine ⟨rfl, decide_eq_true (argField cw).isLt, congrArg Encoding.cmd (commandWord_of_fields hop ?_)⟩
    rw [BitVec.ofNat_toNat, BitVec.setWidth_eq]
  case h_7 => cases h
  all_goals
    obtain ⟨harg, rfl⟩ := noArgument_ok h
    exact ⟨rfl, rfl, congrArg Encoding.cmd (commandWord_of_fields ‹_› harg)⟩

theorem decodeRound_wf (ri : BitVec 6) : (decodeRound ri).wf = true := by
  unfold decodeRound
  split <;> rfl

theorem encode_decodeRound (ri : BitVec 6) : encode (decodeRound ri) = .rnd ri := by
  have hfields := roundIndex_fields ri
  unfold decodeRound
  split <;> rename_i hph <;> rw [hph] at hfields <;> exact congrArg Encoding.rnd hfields

/-- Settles O3: one lemma for each format. -/
theorem encodeOfDecode : Obligations.EncodeOfDecode := by
  intro e i h
  cases e with
  | cmd cw => exact (decodeCommand_ok h).2
  | rnd ri =>
    injection h with h
    subst h
    exact ⟨decodeRound_wf ri, encode_decodeRound ri⟩

/-- Settles O1: the words evaluate. -/
theorem writtenOutWordsDecode : Obligations.WrittenOutWordsDecode := by
  unfold Obligations.WrittenOutWordsDecode
  decide

/-- Settles O6: the 64 round indices evaluate, and what a command word decodes to is a command. -/
theorem roundIndexSelectsMicroOperation : Obligations.RoundIndexSelectsMicroOperation :=
  ⟨by decide, fun _ _ h => (decodeCommand_ok h).1⟩

/-! ### Which command words are legal (R74, R75) -/

/-- The decoder by the two fields as numbers. -/
theorem decodeCommand_cases (cw : Word) :
    (cw.toNat / 2 ^ 28 = 4 ∧ decodeCommand cw = .ok (.process (cw.toNat % 2 ^ 28))) ∨
    (cw.toNat / 2 ^ 28 ∈ [1, 2, 3, 5, 6] ∧ ∃ i, isCommand i = true ∧ decodeCommand cw = noArgument i (argField cw)) ∨
    (cw.toNat / 2 ^ 28 ∉ [1, 2, 3, 4, 5, 6] ∧ decodeCommand cw = .error .opcode) := by
  unfold decodeCommand
  rw [opField_toNat]
  split
  case h_4 hop => exact .inl ⟨hop, by rw [argField_toNat]⟩
  case h_7 => exact .inr (.inr ⟨by simp_all, rfl⟩)
  all_goals exact .inr (.inl ⟨by simp_all, _, rfl, rfl⟩)

theorem noArgument_isOk_iff (i : Instr) (arg : BitVec 28) : (noArgument i arg).isOk = true ↔ arg = 0 := by
  unfold noArgument
  split
  · exact iff_of_true rfl ‹_›
  · exact iff_of_false Bool.false_ne_true ‹_›

/-- R75's condition: an operation with no argument and `arg = 0`, or `PROCESS`. -/
theorem decodeCommand_isOk_iff (cw : Word) :
    (decodeCommand cw).isOk = true ↔
      (cw.toNat / 2 ^ 28 ∈ [1, 2, 3, 5, 6] ∧ cw.toNat % 2 ^ 28 = 0) ∨ cw.toNat / 2 ^ 28 = 4 := by
  rcases decodeCommand_cases cw with ⟨hop, hdec⟩ | ⟨hop, i, -, hdec⟩ | ⟨hop, hdec⟩
  · rw [hdec]
    exact iff_of_true rfl (.inr hop)
  · rw [hdec, noArgument_isOk_iff, argField_eq_zero_iff]
    simp only [List.mem_cons, List.not_mem_nil, or_false] at hop ⊢
    omega
  · rw [hdec]
    refine iff_of_false Bool.false_ne_true ?_
    simp only [List.mem_cons, List.not_mem_nil, or_false] at hop ⊢
    omega

/-- Settles O4: the three kinds of words by their fields, and the fault entry of an illegal one. -/
theorem illegalWordsRaise : Obligations.IllegalWordsRaise := by
  intro cw
  refine ⟨fun hop => ?_, fun hop harg => ?_, fun hlegal => ?_, fun din s r hcw hf => issueCommand_of_illegal hcw din hf⟩
  · rcases decodeCommand_cases cw with ⟨h4, -⟩ | ⟨hmem, -⟩ | ⟨-, hdec⟩
    · omega
    · simp only [List.mem_cons, List.not_mem_nil, or_false] at hmem
      omega
    · exact hdec
  · rcases decodeCommand_cases cw with ⟨h4, -⟩ | ⟨-, i, -, hdec⟩ | ⟨hmem, -⟩
    · simp only [List.mem_cons, List.not_mem_nil, or_false] at hop
      omega
    · rw [hdec, noArgument, if_neg (mt (argField_eq_zero_iff cw).mp harg)]
    · simp only [List.mem_cons, List.not_mem_nil, or_false] at hop hmem
      omega
  · have hok := (decodeCommand_isOk_iff cw).mpr hlegal
    cases hdec : decodeCommand cw with
    | ok i => exact ⟨i, rfl, (decodeCommand_ok hdec).1⟩
    | error r => simp [hdec, Except.isOk, Except.toBool] at hok

/-- The legal words as numbers: five words alone, and the words of `PROCESS`. -/
def legalWords : Finset Nat :=
  {1 * 2 ^ 28, 2 * 2 ^ 28, 3 * 2 ^ 28, 5 * 2 ^ 28, 6 * 2 ^ 28} ∪ Finset.Ico (4 * 2 ^ 28) (5 * 2 ^ 28)

theorem mem_legalWords_iff {n : Nat} :
    n ∈ legalWords ↔ n < 2 ^ 32 ∧ (decodeCommand (BitVec.ofNat 32 n)).isOk = true := by
  rcases Nat.lt_or_ge n (2 ^ 32) with hn | hn
  · rw [decodeCommand_isOk_iff, BitVec.toNat_ofNat, Nat.mod_eq_of_lt hn]
    simp only [legalWords, Finset.mem_union, Finset.mem_insert, Finset.mem_singleton, Finset.mem_Ico, List.mem_cons,
      List.not_mem_nil, or_false]
    omega
  · simp only [legalWords, Finset.mem_union, Finset.mem_insert, Finset.mem_singleton, Finset.mem_Ico]
    omega

theorem legalWords_card : legalWords.card = 5 + 2 ^ 28 := by
  have hdisjoint : Disjoint ({1 * 2 ^ 28, 2 * 2 ^ 28, 3 * 2 ^ 28, 5 * 2 ^ 28, 6 * 2 ^ 28} : Finset Nat)
      (Finset.Ico (4 * 2 ^ 28) (5 * 2 ^ 28)) := by
    rw [Finset.disjoint_left]
    intro n
    simp only [Finset.mem_insert, Finset.mem_singleton, Finset.mem_Ico]
    omega
  rw [legalWords, Finset.card_union_of_disjoint hdisjoint, Nat.card_Ico]
  rfl

/-- Settles O5: the words that decode are the five and the interval of `PROCESS`. -/
theorem legalWordCount : Obligations.LegalWordCount := by
  have hfilter :
      ((Finset.range (2 ^ 32)).filter fun n => (decodeCommand (BitVec.ofNat 32 n)).isOk = true) = legalWords := by
    ext n
    rw [Finset.mem_filter, Finset.mem_range, mem_legalWords_iff]
  exact (congrArg Finset.card hfilter).trans legalWords_card

end Sys2Proof.Machine
end

section
/-! The datapath units by their bits and bytes (40_datapath R91, R92, R101): the rotator, the four round functions, the
little-endian reader, and the obligations O8, O9 and O13. -/

namespace Sys2Proof.Machine

/-! ### The rotator (R91, R98) -/

/-- The two shifted halves have no bit in common, so their `or` is their sum. -/
theorem rotl32_toNat (x : Word) {n : Nat} (hn : n ≤ 32) :
    (rotl32 x n).toNat = (x.toNat * 2 ^ n) % 2 ^ 32 + x.toNat / 2 ^ (32 - n) := by
  have hsplit : (2 : Nat) ^ 32 = 2 ^ (32 - n) * 2 ^ n := by rw [← Nat.pow_add, Nat.sub_add_cancel hn]
  have hlow : x.toNat / 2 ^ (32 - n) < 2 ^ n := Nat.div_lt_of_lt_mul (hsplit ▸ x.isLt)
  have hhigh : (x.toNat * 2 ^ n) % 2 ^ 32 = (x.toNat % 2 ^ (32 - n)) <<< n := by
    rw [hsplit, Nat.mul_mod_mul_right, Nat.shiftLeft_eq]
  rw [rotl32, BitVec.toNat_or, BitVec.toNat_shiftLeft, BitVec.toNat_ushiftRight, Nat.shiftLeft_eq,
    Nat.shiftRight_eq_div_pow, hhigh, Nat.shiftLeft_add_eq_or_of_lt hlow]

/-- Below bit `n` stand the bits that left the top, from bit `n` on the others. -/
theorem rotl32_getLsbD (x : Word) {n k : Nat} (hn : n ≤ 31) (hk : k < 32) :
    (rotl32 x n).getLsbD k = x.getLsbD ((k + 32 - n) % 32) := by
  rw [rotl32, BitVec.getLsbD_or, BitVec.getLsbD_shiftLeft, BitVec.getLsbD_ushiftRight]
  by_cases hlow : k < n
  · have hidx : (k + 32 - n) % 32 = 32 - n + k := by omega
    simp [hlow, hidx]
  · have hidx : (k + 32 - n) % 32 = k - n := by omega
    have hout : x.getLsbD (32 - n + k) = false := BitVec.getLsbD_of_ge x _ (by omega)
    simp [hk, hlow, hidx, hout]

theorem srom_mem_amounts (ph k : Fin 4) :
    srom ph k ∈ ([4, 5, 6, 7, 9, 10, 11, 12, 14, 15, 16, 17, 20, 21, 22, 23] : List Nat) := by
  decide +revert

/-- Settles O8: the rotator as a number and bit by bit, the amounts by their table, the examples by evaluation. -/
theorem rotationMovesEveryBitLeft : Obligations.RotationMovesEveryBitLeft :=
  ⟨fun x _ _ hn => ⟨rotl32_toNat x (by omega), fun _ hk => rotl32_getLsbD x hn hk⟩,
   fun _ => srom_mem_amounts _ _, by decide⟩

/-! ### The round functions (R92 to R96) -/

/-- Settles O9: each function is bitwise, so its bit depends on the three bits alone, and the eight rows evaluate. -/
theorem roundFunctionsFollowTruthTable : Obligations.RoundFunctionsFollowTruthTable := by
  intro b c d k hk
  simp only [rf1, rf2, rf3, rf4, BitVec.getLsbD_or, BitVec.getLsbD_and, BitVec.getLsbD_xor, BitVec.getLsbD_not, hk,
    decide_true, Bool.true_and]
  generalize b.getLsbD k = x, c.getLsbD k = y, d.getLsbD k = z
  revert x y z
  decide

/-! ### The little-endian reader (R101, R122) -/

theorem append_byte_toNat {w : Nat} (x : BitVec w) (b : Byte) : (x ++ b).toNat = 2 ^ 8 * x.toNat + b.toNat := by
  rw [BitVec.toNat_append, ← Nat.shiftLeft_add_eq_or_of_lt b.isLt, Nat.shiftLeft_eq, Nat.mul_comm]

theorem le32_toNat (b0 b1 b2 b3 : Byte) :
    (le32 b0 b1 b2 b3).toNat = b0.toNat + 2 ^ 8 * b1.toNat + 2 ^ 16 * b2.toNat + 2 ^ 24 * b3.toNat := by
  rw [le32, append_byte_toNat, append_byte_toNat, append_byte_toNat]
  ring

theorem wordAt_of_memRead {s : State} {addr : Nat} {b0 b1 b2 b3 : Byte} (h : s.memRead addr 4 = [b0, b1, b2, b3]) :
    wordAt s addr = le32 b0 b1 b2 b3 := by
  simp only [State.memRead, List.cons.injEq, and_true] at h
  obtain ⟨h0, h1, h2, h3⟩ := h
  rw [wordAt, h0, h1, h2, h3]

/-- Settles O13: the word of four bytes is their sum, and each word of the schedule is the word at its address. -/
theorem scheduleWordsAreLittleEndian : Obligations.ScheduleWordsAreLittleEndian :=
  ⟨le32_toNat, fun s off j _ _ _ _ h => (scheduleAt_getElem s off j).trans (wordAt_of_memRead h), by decide⟩

end Sys2Proof.Machine
end

section
/-! The constant ROM (40_datapath R97): decimals near the sine and cosine of 1 to 64 radians by the recurrence of
Laws/Sine, the floor each of them fixes, and the obligation O10. -/

namespace Sys2Proof.Machine

open Sys2Proof.Laws.Sine

/-- The sine and cosine of `n + 1` radians in units of `10^-26`, rounded down at every step. -/
def sinCosUnits : Nat → Int × Int
  | 0 => (84147098480789650665250232, 54030230586813971740093661)
  | n + 1 =>
    let p := sinCosUnits n
    ((p.1 * 54030230586813971740093661 + p.2 * 84147098480789650665250232) / 10 ^ 26,
     (p.2 * 54030230586813971740093661 - p.1 * 84147098480789650665250232) / 10 ^ 26)

/-- A bound in units of `10^-26` on the error of `sinCosUnits`. -/
def sinCosError : Nat → Nat
  | 0 => 10
  | n + 1 => (3 * sinCosError n + 61) / 2

/-- Rounding a decimal down to whole units loses less than one. -/
theorem ediv_units_near {x : ℝ} {p : Int} (hx : x = (p : ℝ) / 10 ^ 52) :
    |x - ((p / 10 ^ 26 : Int) : ℝ) / 10 ^ 26| ≤ 1 / 10 ^ 25 := by
  have hle : 10 ^ 26 * (p / 10 ^ 26) ≤ p := Int.mul_ediv_self_le (by decide)
  have hlt : p < 10 ^ 26 * (p / 10 ^ 26) + 10 ^ 26 := Int.lt_mul_ediv_self_add (by decide)
  generalize p / 10 ^ 26 = q at *
  have hle' : (10 : ℝ) ^ 26 * q ≤ p := by exact_mod_cast hle
  have hlt' : (p : ℝ) < 10 ^ 26 * q + 10 ^ 26 := by exact_mod_cast hlt
  rw [abs_le]
  constructor <;> linarith

theorem sinCosUnits_near (n : Nat) :
    |Real.sin (n + 1) - (sinCosUnits n).1 / 10 ^ 26| ≤ (sinCosError n : ℝ) / 10 ^ 26 ∧
    |Real.cos (n + 1) - (sinCosUnits n).2 / 10 ^ 26| ≤ (sinCosError n : ℝ) / 10 ^ 26 := by
  induction n with
  | zero =>
    obtain ⟨hcos, hsin⟩ := cos_one_near
    norm_num [sinCosUnits, sinCosError] at hcos hsin ⊢
    exact ⟨hsin, hcos⟩
  | succ n ih =>
    obtain ⟨hsin, hcos⟩ := ih
    rw [Nat.cast_succ]
    refine sin_cos_succ hsin hcos ?_ ?_ ?_
    · exact ediv_units_near (by push_cast; ring)
    · exact ediv_units_near (by push_cast; ring)
    · have h : 3 * sinCosError n + 60 ≤ 2 * sinCosError (n + 1) := by
        rw [sinCosError]
        omega
      have h' : (3 : ℝ) * sinCosError n + 60 ≤ 2 * sinCosError (n + 1) := by exact_mod_cast h
      linarith

/-- In units, the scaled absolute sine lies between `k` and `k + 1`, the error included. -/
def fixesFloor (n k : Nat) : Bool :=
  decide (k * 10 ^ 26 + 2 ^ 32 * sinCosError n ≤ 2 ^ 32 * (sinCosUnits n).1.natAbs) &&
    decide (2 ^ 32 * ((sinCosUnits n).1.natAbs + sinCosError n) < (k + 1) * 10 ^ 26)

theorem floor_of_fixesFloor {n k : Nat} (h : fixesFloor n k = true) :
    ⌊(2 : ℝ) ^ 32 * |Real.sin (n + 1)|⌋ = k := by
  simp only [fixesFloor, Bool.and_eq_true, decide_eq_true_eq] at h
  obtain ⟨hlow, hhigh⟩ := h
  have habs : |((sinCosUnits n).1 : ℝ) / 10 ^ 26| = ((sinCosUnits n).1.natAbs : ℝ) / 10 ^ 26 := by
    rw [abs_div, Nat.cast_natAbs, Int.cast_abs, abs_of_pos (by positivity : (0 : ℝ) < 10 ^ 26)]
  have hlow' : (k : ℝ) * 10 ^ 26 + 2 ^ 32 * sinCosError n ≤ 2 ^ 32 * (sinCosUnits n).1.natAbs := by exact_mod_cast hlow
  have hhigh' : (2 : ℝ) ^ 32 * ((sinCosUnits n).1.natAbs + sinCosError n) < (k + 1) * 10 ^ 26 := by
    exact_mod_cast hhigh
  refine floor_of_near (sinCosUnits_near n).1 ?_ ?_ <;> rw [habs, Int.cast_natCast] <;> linarith

theorem krom_fixesFloor : ∀ i : Fin 64, fixesFloor i.val (krom (BitVec.ofFin i)).toNat = true := by
  decide

/-- Settles O10: the decimal of each index fixes the floor at its ROM entry, and a round's sum names the entry. -/
theorem constantRomIsTheSineTable : Obligations.ConstantRomIsTheSineTable :=
  ⟨fun i => (floor_of_fixesFloor (krom_fixesFloor i)).symm, fun _ _ _ _ => rfl⟩

end Sys2Proof.Machine
end

section
/-! `PROCESS` to its end (41_compress R121 to R131): what a step of the machine is, by what stands first in the host's
moves and in the working registers, the 64 steps of a block, and the obligations O16, O17, O21, O22, O48 and O50. -/

namespace Sys2Proof.Machine

/-! ### The atomic command (R126 to R128, R131) -/

/-- Settles O17: what a ready machine answers, its schedule taken from the block's bytes. -/
theorem processCompletesWithCompress : Obligations.ProcessCompletesWithCompress := by
  intro off s hs hoff
  rw [schedule_memRead]
  exact execProcess_of_ready hs hoff

theorem exec_rclean_of_clear {s : State} (hf : s.fault = false) (hw : s.w = zeroSchedule) :
    exec .rclean s = .next s := by
  rw [exec, execRclean_of_no_fault hf, State.clearSchedule, ← hw]

/-- Settles O21: what `PROCESS` leaves has a zero schedule already, and no fault recorded. -/
theorem processCleanPseudoIsProcess : Obligations.ProcessCleanPseudoIsProcess := by
  intro off s hs hoff hclean
  refine ⟨_, execProcess_of_ready hs hoff, ?_⟩
  apply exec_rclean_of_clear
  · rw [State.withBlock_fault, hs.2]
  · rw [State.withBlock_w, if_pos hclean]

/-! ### Micro-operations and the registers they need (R25, R76) -/

theorem onEngine_none {f : Engine → Engine} {s : State} (h : s.engine = none) :
    onEngine f s = .refused .microOpOutsideProcess := by
  simp only [onEngine, h]

/-- Settles O16: there are no working registers to work on. -/
theorem microOperationsNeedAProcess : Obligations.MicroOperationsNeedAProcess := fun _ _ h =>
  ⟨onEngine_none h, onEngine_none h, onEngine_none h, onEngine_none h⟩

/-! ### What a step is (R4, R190, R206) -/

theorem microStep_eq_roundTurn {s : State} {e : Engine} (he : s.engine = some e) :
    microStep e.ri s = .next (roundTurn s) := by
  simp only [microStep, exec_decodeRound, onEngine_some he, roundTurn, he]

theorem step_of_engine {s : State} {e : Engine} (he : s.engine = some e) (hm : s.moves.head? ≠ some .reset) :
    step s = .next (roundTurn s) := by
  rw [← microStep_eq_roundTurn he, step, stepOnce]
  split
  case h_1 hreset => simp [hreset] at hm
  case h_2 he' _ =>
    rw [he] at he'
    injection he' with he'
    rw [he']
  case h_3 he' | h_4 he' => cases he.symm.trans he'

/-- Between commands the host makes its next move. -/
theorem step_of_move {s : State} {mv : HostMove} {rest : List HostMove} (he : s.engine = none)
    (hm : s.moves = mv :: rest) : step s = hostMove mv { s with moves := rest } := by
  rw [step, stepOnce, hm, he]
  cases mv <;> rfl

/-- Settles O50: with no move and no round to run the step is the idle one. -/
theorem withoutAMoveTheStatePersists : Obligations.WithoutAMoveTheStatePersists := by
  intro s he hm
  simp only [step, stepOnce, hm, he]

/-- Settles O48: the step is a turn of the loop, which ends the block after `RI = 63` and else advances `RI`. -/
theorem stepRunsTheRoundUnderWay : Obligations.StepRunsTheRoundUnderWay := by
  intro s t e e' he hm hexec he' hri
  rw [exec_decodeRound, onEngine_some he] at hexec
  injection hexec with ht
  subst ht
  injection he' with hround
  rw [step_of_engine he hm]
  by_cases hlast : e.ri = 63
  · rw [roundTurn_of_last he hlast, if_pos hlast, hround]
    rfl
  · rw [roundTurn_of_not_last he hlast, if_neg hlast, hround]

/-! ### The two levels (R121, R125, R131) -/

/-- With `n` rounds still to come and no reset next, `n` steps are `n` turns of the loop. -/
theorem run_eq_roundTurns (n : Nat) {s : State} {e : Engine} (he : s.engine = some e) (hn : e.ri.toNat + n = 64)
    (hm : s.moves.head? ≠ some .reset) : Host.Core.run Sys2Proof.core n s = .next (roundTurns n s) := by
  induction n generalizing s e with
  | zero => rfl
  | succ n ih =>
    rw [run_next n (step_of_engine he hm), roundTurns]
    by_cases hlast : e.ri = 63
    · have hzero : n = 0 := by bv_omega
      subst hzero
      rfl
    · have hnext : (e.ri + 1).toNat + n = 64 := by bv_omega
      rw [roundTurn_of_not_last he hlast]
      exact ih rfl hnext hm

/-- Settles O22: the 64 steps are the 64 turns of the loop that the one command runs. -/
theorem sixtyFourRoundStepsAreOneProcess : Obligations.SixtyFourRoundStepsAreOneProcess := by
  intro off s hs hoff hm
  have hnoreset : (loadBlock off s).moves.head? ≠ some .reset := by rwa [loadBlock_moves]
  have hrun := run_eq_roundTurns 64 (loadBlock_engine off s) rfl hnoreset
  rw [hrun, roundTurns_loadBlock]
  exact (execProcess_of_ready hs hoff).symm

end Sys2Proof.Machine
end

section
/-! The host's moves (20_memory R51, R60; 70_reset_and_hazards R207): the bytes of `BUF` as read and written, the words of
the outputs, the command that a move issues, and the obligations O43 to O47 and O49. -/

namespace Sys2Proof.Machine

/-! ### `MemRead` and `MemWrite` (R51) -/

@[simp] theorem State.memRead_length (s : State) (addr n : Nat) : (s.memRead addr n).length = n := by
  induction n generalizing addr with
  | zero => rfl
  | succ n ih => rw [State.memRead, List.length_cons, ih]

theorem State.memRead_getElem? (s : State) (addr : Nat) {n k : Nat} (hk : k < n) :
    (s.memRead addr n)[k]? = some (s.bufByte (addr + k)) := by
  have hlen : k < (s.memRead addr n).length := by rwa [State.memRead_length]
  rw [← blockByte_memRead s addr hk, blockByte, List.getElem?_eq_getElem hlen, List.getD_eq_getElem _ _ hlen]

theorem State.bufByte_memWrite_of_lt (s : State) (addr : Nat) {bytes : List Byte} {k : Nat} (hk : k < bytes.length) :
    (s.memWrite addr bytes).bufByte (addr + k) = bytes[k] := by
  rw [State.bufByte_memWrite, dif_pos (by omega)]
  simp only [Nat.add_sub_cancel_left]

theorem State.bufByte_memWrite_of_outside (s : State) {addr x : Nat} {bytes : List Byte}
    (hx : x < addr ∨ addr + bytes.length ≤ x) : (s.memWrite addr bytes).bufByte x = s.bufByte x := by
  rw [State.bufByte_memWrite, dif_neg (by omega)]

/-- Settles O43: both primitives byte by byte. -/
theorem memoryPrimitivesReadAndWrite : Obligations.MemoryPrimitivesReadAndWrite :=
  ⟨fun s addr n => ⟨s.memRead_length addr n, fun _ hk => s.memRead_getElem? addr hk⟩,
   fun s addr _ => ⟨fun _ hk => s.bufByte_memWrite_of_lt addr hk, fun _ hx => s.bufByte_memWrite_of_outside hx, rfl⟩⟩

/-! ### The host's accesses to `BUF` (R207) -/

theorem ifBufHas_of_lt {addr : Nat} {s : State} (t : State) (h : addr < s.params.bufLen) : ifBufHas addr s t = .next t :=
  if_pos h

theorem ifBufHas_of_le {addr : Nat} {s : State} (t : State) (h : s.params.bufLen ≤ addr) :
    ifBufHas addr s t = .fault .noSuchBufByte :=
  if_neg (Nat.not_lt.mpr h)

theorem step_of_writeBuf {s : State} {addr : Nat} {b : Byte} {rest : List HostMove} (he : s.engine = none)
    (hm : s.moves = .writeBuf addr b :: rest) (h : addr < s.params.bufLen) :
    step s = .next ({ s with moves := rest }.memWrite addr [b]) :=
  (step_of_move he hm).trans (ifBufHas_of_lt (s := { s with moves := rest }) _ h)

/-- Settles O44: the write is a `MemWrite` of one byte, the read a reading of the byte. -/
theorem hostBufferAccesses : Obligations.HostBufferAccesses := by
  intro s addr rest he haddr
  refine ⟨fun b hm => ⟨_, step_of_writeBuf he hm haddr, ?_, fun x hx => ?_, rfl⟩, fun hm => ?_⟩
  · exact State.bufByte_memWrite_of_lt { s with moves := rest } addr (bytes := [b]) (k := 0) Nat.zero_lt_one
  · have hout : x < addr ∨ addr + [b].length ≤ x := by
      rw [List.length_singleton]
      omega
    exact State.bufByte_memWrite_of_outside { s with moves := rest } hout
  · exact (step_of_move he hm).trans (ifBufHas_of_lt (s := { s with moves := rest }) _ haddr)

/-- Settles O45: either access asks for a byte that `BUF` does not have. -/
theorem noBufferAccessBeyondTheEnd : Obligations.NoBufferAccessBeyondTheEnd := by
  intro s addr rest he haddr
  refine ⟨fun b hm => ?_, fun hm => ?_⟩ <;>
    exact (step_of_move he hm).trans (ifBufHas_of_le (s := { s with moves := rest }) _ haddr)

/-! ### The outputs (R30, R31) -/

theorem State.status_life (s : State) : s.status.getLsbD 0 = decide (s.life = .active) := by
  simp only [State.status, BitVec.getLsbD_append]
  cases s.life <;> rfl

theorem State.status_reserved (s : State) : s.status.extractLsb' 4 28 = 0 :=
  BitVec.extractLsb'_append_eq_left

/-- Settles O46: `STATUS` field by field, and the two readings. -/
theorem hostReadsTheOutputs : Obligations.HostReadsTheOutputs := by
  refine ⟨fun s => ⟨s.status_life, s.status_fault, ?_, s.status_reserved⟩, fun s rest he => ⟨fun hm => ?_, fun hm => ?_⟩⟩
  · rw [s.status_fcause]
    cases s.fcause <;> rfl
  · exact step_of_move he hm
  · exact step_of_move he hm

/-! ### The command a move issues (R13, R33, R70) -/

theorem issueCommand_of_legal {cw : Word} {i : Instr} (hcw : decodeCommand cw = .ok i) (din : Quad) (s : State) :
    issueCommand cw din s = exec i { s with din := din } := by
  simp only [issueCommand, hcw]

/-- Settles O47: the step issues the word, and issuing a legal word executes what it stands for. -/
theorem stepRunsTheIssuedCommand : Obligations.StepRunsTheIssuedCommand := by
  intro s cw din rest i he hm hcw
  rw [step_of_command he hm, issueCommand_of_legal hcw]

theorem tableEncoding_command {w : Nat} (hw : w < 2 ^ 32) : tableEncoding 32 w = some (.cmd (BitVec.ofNat 32 w)) := by
  rw [tableEncoding, if_neg (by decide), if_pos hw]

theorem decodeTableWord_command {w : Nat} {i : Instr} (hw : w < 2 ^ 32) (h : decodeTableWord 32 w = some i) :
    decodeCommand (BitVec.ofNat 32 w) = .ok i := by
  simp only [decodeTableWord, tableEncoding_command hw, decode] at h
  cases hdec : decodeCommand (BitVec.ofNat 32 w) with
  | ok i' =>
    rw [hdec] at h
    injection h with h
    rw [h]
  | error r =>
    rw [hdec] at h
    cases h

/-- Settles O49: the placed word is the host's next move, between commands and with the words that stand on `DIN`. -/
theorem stepRunsThePlacedWord : Obligations.StepRunsThePlacedWord := by
  intro s w i hw hdec
  rw [State.withFetchWord, tableEncoding_command hw]
  exact stepRunsTheIssuedCommand _ _ s.din s.moves i rfl rfl (decodeTableWord_command hw hdec)

end Sys2Proof.Machine
end

section
/-! What instructions and steps leave unchanged and what they keep (10_state R20 to R34, 00_scope R6, 60_exceptions R168):
the frame of every instruction, the parameters, the first fault record, `State.Inv`, the one step that stops, and the
obligations O35, O36 and O39 to O42. -/

namespace Sys2Proof.Machine

/-! ### The frame of an instruction (R22, R24, R30, R52, R73) -/

/-- A `PROCESS` that completes changes nothing but `H`, `W`, the working registers and the fault record. -/
theorem execProcess_frame {off : Nat} {s t : State} (h : execProcess off s = .next t) :
    ∃ h' w' e' f c i, t = { s.withBlock h' w' e' with fault := f, fcause := c, finfo := i } := by
  rcases execProcess_next h with ⟨-, rfl⟩ | ⟨-, -, rfl⟩ | ⟨-, -, -, rfl⟩
  · exact ⟨t.h, t.w, t.engine, t.fault, t.fcause, t.finfo, rfl⟩
  · exact ⟨s.h, s.w, s.engine, _, _, _, rfl⟩
  · obtain ⟨h', w', e', heq⟩ := block_eq off s
    exact ⟨h', w', e', s.fault, s.fcause, s.finfo, heq⟩

/-- Settles O42: what each meaning can answer shows what it leaves alone. -/
theorem writersOfEachPieceOfState : Obligations.WritersOfEachPieceOfState := by
  intro i s t h
  cases i with
  | init =>
    obtain rfl := execInit_next h
    simp [State.bufByte]
  | get => rcases execGet_next h with ⟨-, rfl⟩ | ⟨-, rfl⟩ <;> simp [State.bufByte]
  | set => rcases execSet_next h with ⟨-, rfl⟩ | ⟨-, rfl⟩ <;> simp [State.bufByte]
  | process off =>
    obtain ⟨h', w', e', f, c, i, rfl⟩ := execProcess_frame h
    simp [State.bufByte]
  | rclean => rcases execRclean_next h with ⟨-, rfl⟩ | ⟨-, rfl⟩ <;> simp [State.bufByte]
  | destroy =>
    obtain rfl := execDestroy_next h
    simp
  | rnd1 | rnd2 | rnd3 | rnd4 =>
    obtain ⟨e, -, rfl⟩ := onEngine_next h
    simp [State.bufByte, isCommand]

/-! ### The parameters (R6) -/

theorem exec_params {i : Instr} {s t : State} (h : exec i s = .next t) : t.params = s.params := by
  obtain ⟨-, -, -, -, -, -, -, hparams, -⟩ := writersOfEachPieceOfState i s t h
  exact hparams

theorem issueCommand_params {cw : Word} {din : Quad} {s t : State} (h : issueCommand cw din s = .next t) :
    t.params = s.params := by
  rcases issueCommand_next h with ⟨i, -, hexec⟩ | ⟨r, -, rfl⟩
  · exact exec_params (s := { s with din := din }) hexec
  · rcases illegalCommand_eq cw { s with din := din } with ⟨-, heq⟩ | ⟨-, heq⟩ <;> rw [heq]
    rfl

theorem hostMove_params {mv : HostMove} {s t : State} (h : hostMove mv s = .next t) : t.params = s.params := by
  cases mv with
  | writeBuf | readBuf =>
    obtain ⟨-, rfl⟩ := ifBufHas_next h
    rfl
  | command cw din => exact issueCommand_params h
  | readStatus | readDout | reset => cases h; rfl

theorem roundTurn_params (s : State) : (roundTurn s).params = s.params := by
  obtain ⟨h, w, e, heq⟩ := roundTurn_eq s
  rw [heq, State.withBlock_params]

/-- The round of a step, as a turn of the loop. -/
theorem eq_roundTurn_of_microStep {s t : State} {e : Engine} (he : s.engine = some e) (h : microStep e.ri s = .next t) :
    t = roundTurn s := by
  rw [microStep_eq_roundTurn he] at h
  injection h with h
  exact h.symm

/-- Settles O41: by what the step is. -/
theorem noStepChangesTheParameters : Obligations.NoStepChangesTheParameters := by
  intro s t hstep
  rcases step_next hstep with ⟨rest, -, rfl⟩ | ⟨e, he, -, hround⟩ | ⟨mv, rest, -, -, -, hmove⟩ | ⟨-, -, rfl⟩
  · exact resetEvent_params _
  · rw [eq_roundTurn_of_microStep he hround, roundTurn_params]
  · exact hostMove_params (s := { s with moves := rest }) hmove
  · rfl

/-! ### The first fault record (R168) -/

/-- Settles O35: a step keeps the whole record, or it is a reset or an `INIT` and leaves no fault recorded. -/
theorem firstFaultRecordIsKept : Obligations.FirstFaultRecordIsKept := by
  intro s t hstep hf hf'
  have hrecord : t.faultRecord = s.faultRecord := by
    rcases step_next hstep with ⟨rest, -, rfl⟩ | ⟨e, -, -, hround⟩ | ⟨mv, rest, -, -, hreset, hmove⟩ | ⟨-, -, rfl⟩
    · cases hf'
    · exact microStep_faultRecord hround
    · refine hostMove_faultRecord (s := { s with moves := rest }) hmove hf hreset ?_
      rintro din rfl
      injection hmove with ht
      subst ht
      cases hf'
    · rfl
  exact Prod.mk.inj (congrArg Prod.snd hrecord)

/-! ### The invariant -/

/-- The reset state of legal parameters: empty `BUF`, no fault, no `PROCESS` under way. -/
theorem resetWith_inv {p : Params} (hp : p.wf = true) : (State.resetWith p).Inv where
  params_wf := hp
  buf_wf := rfl
  buf_in_range _ hc := nomatch hc
  no_fault_record _ := ⟨rfl, rfl⟩
  fault_record hf := nomatch hf
  engine_ok he := absurd rfl he

/-- Settles O39: `State.reset` is the reset state of one legal pair. -/
theorem resetMeetsTheInvariant : Obligations.ResetMeetsTheInvariant :=
  ⟨fun _ hp => resetWith_inv hp, resetWith_inv (by decide)⟩

theorem State.Inv.construct {s : State} (hs : s.Inv) : s.construct.Inv where
  params_wf := hs.params_wf
  buf_wf := hs.buf_wf
  buf_in_range := hs.buf_in_range
  no_fault_record _ := ⟨rfl, rfl⟩
  fault_record hf := nomatch hf
  engine_ok _ := ⟨rfl, rfl⟩

theorem State.Inv.resetEvent {s : State} (hs : s.Inv) : (resetEvent s).Inv where
  params_wf := hs.params_wf
  buf_wf := resetEvent_buf_wf s
  buf_in_range _ hc := nomatch hc
  no_fault_record _ := ⟨rfl, rfl⟩
  fault_record hf := nomatch hf
  engine_ok he := absurd rfl he

/-- `MemWrite` within `BUF` keeps its form and its length (R50). -/
theorem State.Inv.memWrite {s : State} (hs : s.Inv) {addr : Nat} {bytes : List Byte}
    (hin : addr + bytes.length ≤ s.params.bufLen) : (s.memWrite addr bytes).Inv :=
  { hs with
    buf_wf := Memory.writeBytes_wf bytes addr hs.buf_wf
    buf_in_range := fun c hc => by
      rcases Memory.mem_writeBytes bytes hc with hold | ⟨-, hlt⟩
      · exact hs.buf_in_range c hold
      · exact Nat.lt_of_lt_of_le hlt hin }

theorem State.Inv.withBlock {s : State} (hs : s.Inv) (hready : s.ready) (h : Quad) (w : Vector Word 16)
    (e : Option Engine) : (s.withBlock h w e).Inv :=
  { hs with engine_ok := fun _ => hready }

/-- Fault entry between commands, with a cause that occurs (R31). -/
theorem State.Inv.raise {s : State} (hs : s.Inv) (he : s.engine = none) {cause : FCause}
    (hcause : cause = .blockRange ∨ cause = .illegalCmd) (cw : Word) : (raise cause cw s).Inv :=
  { hs with
    no_fault_record := fun hf => nomatch hf
    fault_record := fun _ => hcause
    engine_ok := fun hne => absurd he hne }

theorem State.Inv.zeroised {s : State} (hs : s.Inv) (he : s.engine = none) : s.zeroised.Inv :=
  have hzero : s.zeroBuf.Inv := hs.memWrite (by rw [List.length_replicate, Nat.zero_add])
  { hzero with engine_ok := fun hne => absurd he hne }

theorem execProcess_inv {off : Nat} {s t : State} (hs : s.Inv) (he : s.engine = none) (h : execProcess off s = .next t) :
    t.Inv := by
  rcases execProcess_next h with ⟨-, rfl⟩ | ⟨-, -, rfl⟩ | ⟨hf, -, hlife, rfl⟩
  · exact hs
  · exact hs.raise he (.inl rfl) _
  · rw [roundTurns_loadBlock]
    exact hs.withBlock ⟨hlife, hf⟩ _ _ _

/-- Between commands every instruction keeps the invariant: a command by what it writes, and no round is run there. -/
theorem exec_inv {i : Instr} {s t : State} (hs : s.Inv) (he : s.engine = none) (h : exec i s = .next t) : t.Inv := by
  cases i with
  | init => exact execInit_next h ▸ hs.construct
  | get => rcases execGet_next h with ⟨-, rfl⟩ | ⟨-, rfl⟩ <;> exact { hs with }
  | set => rcases execSet_next h with ⟨-, rfl⟩ | ⟨-, rfl⟩ <;> exact { hs with }
  | process off => exact execProcess_inv hs he h
  | rclean => rcases execRclean_next h with ⟨-, rfl⟩ | ⟨-, rfl⟩ <;> exact { hs with }
  | destroy => exact execDestroy_next h ▸ hs.zeroised he
  | rnd1 | rnd2 | rnd3 | rnd4 =>
    obtain ⟨e, he', -⟩ := onEngine_next h
    cases he.symm.trans he'

theorem issueCommand_inv {cw : Word} {din : Quad} {s t : State} (hs : s.Inv) (he : s.engine = none)
    (h : issueCommand cw din s = .next t) : t.Inv := by
  have hdin : ({ s with din := din } : State).Inv := { hs with }
  rcases issueCommand_next h with ⟨i, -, hexec⟩ | ⟨r, -, rfl⟩
  · exact exec_inv hdin he hexec
  · rcases illegalCommand_eq cw { s with din := din } with ⟨-, heq⟩ | ⟨-, heq⟩ <;> rw [heq]
    · exact hdin
    · exact hdin.raise he (.inr rfl) cw

theorem hostMove_inv {mv : HostMove} {s t : State} (hs : s.Inv) (he : s.engine = none) (h : hostMove mv s = .next t) :
    t.Inv := by
  cases mv with
  | writeBuf addr b =>
    obtain ⟨haddr, rfl⟩ := ifBufHas_next h
    exact hs.memWrite haddr
  | readBuf addr =>
    obtain ⟨-, rfl⟩ := ifBufHas_next h
    exact { hs with }
  | command cw din => exact issueCommand_inv hs he h
  | readStatus | readDout =>
    injection h with h
    exact h ▸ { hs with }
  | reset =>
    injection h with h
    exact h ▸ hs.resetEvent

/-- Settles O40: by what the step is; inside a `PROCESS` the machine is ready, and a round leaves it so. -/
theorem everyStepKeepsTheInvariant : Obligations.EveryStepKeepsTheInvariant := by
  intro s t hs hstep
  rcases step_next hstep with ⟨rest, -, rfl⟩ | ⟨e, he, -, hround⟩ | ⟨mv, rest, he, -, -, hmove⟩ | ⟨-, -, rfl⟩
  · exact State.Inv.resetEvent { hs with }
  · have hready : s.ready := hs.engine_ok (by simp [he])
    obtain ⟨h, w, e', heq⟩ := roundTurn_eq s
    rw [eq_roundTurn_of_microStep he hround, heq]
    exact hs.withBlock hready h w e'
  · have hmoves : ({ s with moves := rest } : State).Inv := { hs with }
    exact hostMove_inv hmoves he hmove
  · exact hs

/-! ### The one step that stops (R14, R129, R206) -/

theorem unlessFaulted_completes {s d t : State} : ∃ u, unlessFaulted s d (.next t) = .next u := by
  cases hf : s.fault with
  | true => exact ⟨d, unlessFaulted_shut hf⟩
  | false => exact ⟨t, unlessFaulted_open hf⟩

/-- The stops of `PROCESS`: with its checks passed and `LIFE = ACTIVE` it completes. -/
theorem execProcess_completes_or_undefined (off : Nat) (s : State) :
    (∃ t, execProcess off s = .next t) ∨
    (execProcess off s = .refused .processAfterDestroy ∧ undefinedStep off s) := by
  cases hf : s.fault with
  | true => exact .inl ⟨_, execProcess_of_fault off hf⟩
  | false =>
    rcases Nat.lt_or_ge s.params.bufLen (off + 64) with hoff | hoff
    · exact .inl ⟨_, execProcess_of_out_of_range hf hoff⟩
    · cases hlife : s.life with
      | active => exact .inl ⟨_, execProcess_of_ready ⟨hlife, hf⟩ hoff⟩
      | destroyed => exact .inr ⟨execProcess_of_destroyed hf hoff hlife, hf, hoff, hlife⟩

theorem exec_command_completes {i : Instr} (s : State) (hi : isCommand i = true) (hp : ∀ off, i ≠ .process off) :
    ∃ t, exec i s = .next t := by
  cases i with
  | init => exact ⟨_, rfl⟩
  | get | set | rclean => exact unlessFaulted_completes
  | process off => exact absurd rfl (hp off)
  | destroy => exact ⟨_, rfl⟩
  | rnd1 | rnd2 | rnd3 | rnd4 => cases hi

theorem processWord_of_decodeCommand {cw : Word} {off : Nat} (h : decodeCommand cw = .ok (.process off)) :
    off < 2 ^ 28 ∧ cw = processWord off := by
  obtain ⟨-, hwf, henc⟩ := decodeCommand_ok h
  have hoff : off < 2 ^ 28 := of_decide_eq_true hwf
  injection henc with hcw
  refine ⟨hoff, BitVec.eq_of_toNat_eq ?_⟩
  rw [processWord_toNat hoff, ← hcw, commandWord, BitVec.toNat_append, BitVec.toNat_ofNat, Nat.mod_eq_of_lt hoff,
    ← Nat.shiftLeft_add_eq_or_of_lt hoff]
  rfl

theorem issueCommand_completes_or_undefined (cw : Word) (din : Quad) (s : State) :
    (∃ t, issueCommand cw din s = .next t) ∨
    (issueCommand cw din s = .refused .processAfterDestroy ∧
      ∃ off, off < 2 ^ 28 ∧ cw = processWord off ∧ undefinedStep off s) := by
  cases hcw : decodeCommand cw with
  | error r => exact .inl ⟨_, by rw [issueCommand, hcw]⟩
  | ok i =>
    rw [issueCommand_of_legal hcw]
    by_cases hp : ∃ off, i = .process off
    · obtain ⟨off, rfl⟩ := hp
      obtain ⟨hoff, hword⟩ := processWord_of_decodeCommand hcw
      rcases execProcess_completes_or_undefined off { s with din := din } with hnext | ⟨hstop, hundef⟩
      · exact .inl hnext
      · exact .inr ⟨hstop, off, hoff, hword, hundef⟩
    · exact .inl (exec_command_completes _ (decodeCommand_ok hcw).1 (not_exists.mp hp))

theorem hostMove_completes_or_undefined {mv : HostMove} {s : State} (hwf : mv.wf s.params = true) :
    (∃ t, hostMove mv s = .next t) ∨
    (hostMove mv s = .refused .processAfterDestroy ∧
      ∃ off din, off < 2 ^ 28 ∧ mv = .command (processWord off) din ∧ undefinedStep off s) := by
  cases mv with
  | writeBuf | readBuf => exact .inl ⟨_, ifBufHas_of_lt _ (of_decide_eq_true hwf)⟩
  | command cw din =>
    rcases issueCommand_completes_or_undefined cw din s with hnext | ⟨hstop, off, hoff, rfl, hundef⟩
    · exact .inl hnext
    · exact .inr ⟨hstop, off, din, hoff, rfl, hundef⟩
  | readStatus | readDout | reset => exact .inl ⟨_, rfl⟩

/-- Settles O36: reset, a round and every move of R207 but a command complete, and a command stops at R129 alone. -/
theorem onlyTheUndefinedStepStops : Obligations.OnlyTheUndefinedStepStops := by
  intro s hwf
  by_cases hreset : s.moves.head? = some .reset
  · obtain ⟨rest, hm⟩ := List.head?_eq_some_iff.mp hreset
    exact .inl ⟨_, step_of_reset hm⟩
  · cases he : s.engine with
    | some e => exact .inl ⟨_, step_of_engine he hreset⟩
    | none =>
      rcases hm : s.moves with - | ⟨mv, rest⟩
      · exact .inl ⟨s, withoutAMoveTheStatePersists s he hm⟩
      · have hmv : mv.wf s.params = true := List.all_eq_true.mp hwf mv (by simp [hm])
        rw [step_of_move he hm]
        rcases hostMove_completes_or_undefined (s := { s with moves := rest }) hmv with
          hnext | ⟨hstop, off, din, hoff, rfl, hundef⟩
        · exact .inl hnext
        · exact .inr ⟨hstop, off, din, rest, hoff, rfl, hundef⟩

end Sys2Proof.Machine
end

section
/-! Reset, the lifecycle and the checks on a command word (70_reset_and_hazards R190, R191; 42_state_adapter R147;
60_exceptions R164, R166), and the obligations O29, O32, O33, O37 and O38. -/

namespace Sys2Proof.Machine

/-! ### Reset (R37, R190, R191) -/

/-- `STATUS` of a constructed computation: `LIFE` alone. -/
theorem State.status_constructed {s : State} (hlife : s.life = .active) (hf : s.fault = false)
    (hcause : s.fcause = .none) : s.status = 0x00000001 := by
  rw [State.status, hlife, hf, hcause]
  decide

/-- Settles O37: the reset state and the reset event, field by field. -/
theorem resetLeavesTheStatedValues : Obligations.ResetLeavesTheStatedValues := by
  refine ⟨fun p => ⟨_, rfl, rfl, rfl, zeroSchedule_getElem, State.status_constructed rfl rfl rfl, rfl, fun _ => rfl, rfl⟩,
    fun s rest hm => ?_⟩
  exact ⟨_, step_of_reset hm, rfl, rfl, rfl, rfl, zeroSchedule_getElem, State.status_constructed rfl rfl rfl, rfl,
    fun _ => rfl, rfl⟩

/-- Settles O38: both construct a computation, and reset alone empties `BUF`. -/
theorem resetAndInitLeaveTheSameRegisters : Obligations.ResetAndInitLeaveTheSameRegisters := fun s _ hm =>
  ⟨_, s.construct, step_of_reset hm, rfl, rfl, rfl, rfl, rfl, fun _ => ⟨rfl, rfl⟩, fun _ => rfl⟩

/-! ### The lifecycle (R147) -/

/-- `SET` after `DESTROY`, then `GET`: the words of the port. -/
theorem execGet_of_set_zeroised {s : State} (hf : s.fault = false) :
    ∃ v g, execSet s.zeroised = .next v ∧ execGet v = .next g ∧ g.dout = s.din ∧ g.life = .destroyed :=
  have hf' : s.zeroised.fault = false := s.zeroised_fault.trans hf
  ⟨_, _, execSet_of_no_fault hf', execGet_of_no_fault (s := { s.zeroised with h := s.zeroised.din }) hf', rfl, rfl⟩

/-- Settles O29: the table row by row. -/
theorem lifecycleFollowsTable : Obligations.LifecycleFollowsTable := by
  intro s hf
  refine ⟨?init, ?get, ?set, ?rclean, ?destroy, fun off hoff => ⟨fun hlife => ?run, ?undefined⟩, fun rest hm => ?reset⟩
  case init => exact ⟨s.construct, rfl, rfl, rfl, rfl⟩
  case get => exact ⟨_, execGet_of_no_fault hf, rfl⟩
  case set => exact ⟨_, execSet_of_no_fault hf, rfl⟩
  case rclean => exact ⟨_, execRclean_of_no_fault hf, rfl⟩
  case destroy => exact ⟨_, execDestroy_eq s, rfl, ⟨_, execGet_zeroised hf, rfl, rfl⟩, execGet_of_set_zeroised hf⟩
  case run =>
    refine ⟨_, execProcess_of_ready ⟨hlife, hf⟩ hoff, ?_, ?_⟩
    · rw [State.withBlock_life, hlife]
    · rw [State.withBlock_h]
  case undefined => exact execProcess_of_destroyed hf hoff
  case reset => exact ⟨_, step_of_reset hm, rfl⟩

/-! ### While a fault is recorded (R166) -/

theorem issueCommand_of_illegal_fault {cw : Word} {r : IllegalWord} (hcw : decodeCommand cw = .error r) (din : Quad)
    {s : State} (hf : s.fault = true) : issueCommand cw din s = .next { s with din := din } := by
  simp only [issueCommand, hcw, illegalCommand, hf, if_true]

/-- Settles O32: the gate is shut for all but `DESTROY` and `INIT`, which have none. -/
theorem recordedFaultDiscardsCommands : Obligations.RecordedFaultDiscardsCommands := by
  intro s hf
  refine ⟨unlessFaulted_shut hf, fun off => unlessFaulted_shut hf, unlessFaulted_shut hf, ⟨_, _, unlessFaulted_shut hf⟩,
    fun cw din r hcw => issueCommand_of_illegal_fault hcw din hf, ?_, ?_⟩
  · refine ⟨s.zeroised, execDestroy_eq s, rfl, rfl, rfl, fun a ha => ?_, hf, rfl, rfl⟩
    exact State.bufByte_of_read (State.zeroised_read_of_lt ha)
  · exact ⟨s.construct, rfl, rfl, rfl, rfl, rfl, rfl, rfl⟩

/-! ### The checks in their order (R164) -/

/-- No two words stand for one command (R71). -/
theorem decodeCommand_injective {cw cw' : Word} {i : Instr} (h : decodeCommand cw = .ok i)
    (h' : decodeCommand cw' = .ok i) : cw = cw' := by
  obtain ⟨-, -, henc⟩ := decodeCommand_ok h
  obtain ⟨-, -, henc'⟩ := decodeCommand_ok h'
  exact Encoding.cmd.inj (henc.symm.trans henc')

/-- Check (1): what is left of a word other than those of `INIT` and `DESTROY`. -/
theorem issueCommand_of_fault {cw : Word} {din : Quad} {s : State} (hf : s.fault = true) (hinit : cw ≠ 0x10000000)
    (hdestroy : cw ≠ 0x60000000) :
    issueCommand cw din s =
      .next (if cw = 0x20000000 then { s with din := din }.undefineDout else { s with din := din }) := by
  by_cases hget : cw = 0x20000000
  · rw [if_pos hget, hget, issueCommand_of_legal (i := .get) (by decide)]
    exact unlessFaulted_shut hf
  · rw [if_neg hget]
    cases hcw : decodeCommand cw with
    | error r => exact issueCommand_of_illegal_fault hcw din hf
    | ok i =>
      rw [issueCommand_of_legal hcw]
      cases i with
      | init => exact absurd (decodeCommand_injective hcw (by decide)) hinit
      | get => exact absurd (decodeCommand_injective hcw (by decide)) hget
      | destroy => exact absurd (decodeCommand_injective hcw (by decide)) hdestroy
      | set | process | rclean => exact unlessFaulted_shut hf
      | rnd1 | rnd2 | rnd3 | rnd4 => cases (decodeCommand_ok hcw).1

/-- Past check (1) a word that is neither `INIT`'s nor `DESTROY`'s finds no fault recorded. -/
theorem fault_of_not_discarded {cw : Word} {s : State} (h : ¬(s.fault = true ∧ cw ≠ 0x10000000 ∧ cw ≠ 0x60000000))
    (hinit : decodeCommand cw ≠ .ok .init) (hdestroy : decodeCommand cw ≠ .ok .destroy) : s.fault = false := by
  have hinit' : cw ≠ 0x10000000 := by
    rintro rfl
    exact hinit (by decide)
  have hdestroy' : cw ≠ 0x60000000 := by
    rintro rfl
    exact hdestroy (by decide)
  exact Bool.eq_false_iff.mpr fun hf => h ⟨hf, hinit', hdestroy'⟩

/-- Checks (3) and (4), for `PROCESS` with no fault recorded. -/
theorem execProcess_checks (off : Nat) {s : State} (hf : s.fault = false) :
    execProcess off s =
      if s.params.bufLen < off + 64 then .next (raise .blockRange (processWord off) s)
      else if s.life = .destroyed then .refused .processAfterDestroy
      else execProcess off s := by
  split_ifs with hoff hlife
  · exact execProcess_of_out_of_range hf hoff
  · exact execProcess_of_destroyed hf (Nat.not_lt.mp hoff) hlife
  · rfl

/-- Settles O33: a discarded word by check (1), an illegal one by check (2), `PROCESS` by (3) and (4), the others run. -/
theorem checksOnACommandWord : Obligations.ChecksOnACommandWord := by
  intro cw din rest s he hm u
  rw [step_of_command he hm]
  by_cases hgate : s.fault = true ∧ cw ≠ 0x10000000 ∧ cw ≠ 0x60000000
  · obtain ⟨hf, hinit, hdestroy⟩ := hgate
    rw [if_pos ⟨hf, hinit, hdestroy⟩]
    exact issueCommand_of_fault (s := { s with moves := rest }) hf hinit hdestroy
  · rw [if_neg hgate]
    cases hcw : decodeCommand cw with
    | error r =>
      have hf : s.fault = false := fault_of_not_discarded hgate (by simp [hcw]) (by simp [hcw])
      exact issueCommand_of_illegal hcw din (s := { s with moves := rest }) hf
    | ok i =>
      rw [issueCommand_of_legal hcw]
      cases i with
      | process off =>
        have hf : s.fault = false := fault_of_not_discarded hgate (by simp [hcw]) (by simp [hcw])
        obtain ⟨-, rfl⟩ := processWord_of_decodeCommand hcw
        exact execProcess_checks off (s := u) hf
      | init | get | set | rclean | destroy | rnd1 | rnd2 | rnd3 | rnd4 => rfl

end Sys2Proof.Machine
end

section
/-! The host's bytes (70_reset_and_hazards R193, R194; 42_state_adapter R145): little-endian bytes, the padded message and
its blocks, and the obligations O30, O51 and O54. -/

namespace Sys2Proof.Machine

/-! ### Numbers as bytes (R145) -/

@[simp] theorem byteOf_toNat (n m : Nat) : (byteOf n m).toNat = n / 2 ^ (8 * m) % 256 := BitVec.toNat_ofNat _ _

theorem littleEndian_getElem? (n : Nat) {k m : Nat} (hm : m < k) : (littleEndian n k)[m]? = some (byteOf n m) := by
  induction k with
  | zero => omega
  | succ k ih =>
    rw [littleEndian]
    by_cases hlast : m = k
    · rw [hlast, List.getElem?_append_right (by simp)]
      simp
    · have hlt : m < k := by omega
      rw [List.getElem?_append_left (by simpa using hlt), ih hlt]

@[simp] theorem wordBytes_length (x : Word) : (wordBytes x).length = 4 := littleEndian_length _ _

/-- Word `k` of a result. -/
def resultWord (q : Quad) : Fin 4 → Word
  | 0 => q.a
  | 1 => q.b
  | 2 => q.c
  | 3 => q.d

theorem wordBytes_append_first (x : Word) (bs : List Byte) {m : Nat} (hm : m < 4) :
    (wordBytes x ++ bs)[m]? = some (byteOf x.toNat m) := by
  rw [List.getElem?_append_left (by simpa using hm), wordBytes, littleEndian_getElem? _ hm]

theorem wordBytes_append_rest (x : Word) (bs : List Byte) (i : Nat) : (wordBytes x ++ bs)[i + 4]? = bs[i]? := by
  rw [List.getElem?_append_right (by simp), wordBytes_length, Nat.add_sub_cancel]

/-- Byte `m` of word `k` stands after the four bytes of each word before it. -/
theorem serialize_getElem? (q : Quad) (k m : Fin 4) :
    (serialize q)[4 * k.val + m.val]? = some (byteOf (resultWord q k).toNat m.val) := by
  have hserialize : serialize q = wordBytes q.a ++ (wordBytes q.b ++ (wordBytes q.c ++ (wordBytes q.d ++ []))) := by
    simp only [serialize, List.append_assoc, List.append_nil]
  have hm : m.val < 4 := m.isLt
  have hindex : 4 * k.val + m.val = m.val + 4 * k.val := Nat.add_comm _ _
  rw [hserialize, hindex]
  match k with
  | 0 => exact wordBytes_append_first _ _ hm
  | 1 => exact (wordBytes_append_rest _ _ _).trans (wordBytes_append_first _ _ hm)
  | 2 =>
    exact (wordBytes_append_rest _ _ (m.val + 4)).trans
      ((wordBytes_append_rest _ _ _).trans (wordBytes_append_first _ _ hm))
  | 3 =>
    exact (wordBytes_append_rest _ _ (m.val + 8)).trans
      ((wordBytes_append_rest _ _ (m.val + 4)).trans
        ((wordBytes_append_rest _ _ _).trans (wordBytes_append_first _ _ hm)))

/-- Settles O30: each byte of the result is a byte of its word. -/
theorem digestBytesAreLittleEndian : Obligations.DigestBytesAreLittleEndian := by
  intro q
  refine ⟨by simp [serialize], fun k m => ⟨_, serialize_getElem? q k m, ?_⟩⟩
  rw [byteOf_toNat]
  match k with
  | 0 | 1 | 2 | 3 => rfl

/-! ### Padding (R194) -/

theorem padZeros_fills (n : Nat) : (n + 1 + padZeros n + 8) % 64 = 0 := by
  rw [padZeros]
  omega

theorem padZeros_le {n z : Nat} (hz : (n + 1 + z + 8) % 64 = 0) : padZeros n ≤ z := by
  rw [padZeros]
  omega

/-- Settles O51: the zeros of `pad` fill the last block, and any number that does is congruent to theirs, which is below
64. -/
theorem paddingFillsWholeBlocks : Obligations.PaddingFillsWholeBlocks := by
  intro m
  refine ⟨padZeros m.length, littleEndian (8 * m.length % 2 ^ 64) 8, ?_, littleEndian_length _ _,
    padZeros_fills _, fun _ => padZeros_le, fun k hk => ⟨_, littleEndian_getElem? _ hk, byteOf_toNat _ _⟩⟩
  rw [pad, List.append_assoc, List.append_assoc, List.singleton_append]

/-! ### Layouts in `BUF` (R193) -/

theorem oneByOne_fits {p : Params} {off : Nat} {blocks : List (List Byte)} (hlen : ∀ blk ∈ blocks, blk.length = 64)
    (hoff : off + 64 ≤ p.bufLen) : (oneByOne off blocks).all (Batch.fits p) = true := by
  rw [oneByOne, List.all_map, List.all_eq_true]
  intro blk hblk
  exact (Batch.fits_iff p _).mpr ⟨by simpa using hlen blk hblk, by simpa using hoff⟩

theorem allAtOnce_fits {p : Params} {off : Nat} {blocks : List (List Byte)} (hlen : ∀ blk ∈ blocks, blk.length = 64)
    (hoff : off + 64 * blocks.length ≤ p.bufLen) : (allAtOnce off blocks).all (Batch.fits p) = true := by
  rw [allAtOnce, List.all_cons, List.all_nil, Bool.and_true]
  exact (Batch.fits_iff p _).mpr ⟨hlen, hoff⟩

theorem DigestPlan.wf_iff (p : Params) (m : List Byte) (pl : DigestPlan) :
    pl.wf p m = true ↔ pl.batches.all (Batch.fits p) = true ∧ batchesBlocks pl.batches = messageBlocks m := by
  rw [DigestPlan.wf, Bool.and_eq_true, decide_eq_true_eq]

/-- Settles O54: the blocks of a padded message are complete and together as long as it is. -/
theorem bothLayoutsAreDigestPlans : Obligations.BothLayoutsAreDigestPlans := by
  intro start check m off p
  obtain ⟨hlen, htotal⟩ := messageBlocks_spec m
  refine ⟨fun hoff => (DigestPlan.wf_iff p m _).mpr ⟨oneByOne_fits hlen hoff, batchesBlocks_oneByOne off _⟩,
    fun hoff => (DigestPlan.wf_iff p m _).mpr ⟨allAtOnce_fits hlen ?_, batchesBlocks_allAtOnce off _⟩⟩
  rwa [htotal]

end Sys2Proof.Machine
end

section
/-! Whole messages (41_compress R137, R138; 42_state_adapter R146; 70_reset_and_hazards R193, R195, R206): runs of the
host's moves, piece by piece and joined, and the obligations O28, O52 and O53. -/

namespace Sys2Proof.Machine

/-! ### Runs that go well (R206) -/

/-- `n` steps lead from `s` to `t`, none of them recording a fault. -/
def RunsWell (n : Nat) (s t : State) : Prop :=
  Host.Core.run Sys2Proof.core n s = .next t ∧ goesWell n s = true

theorem RunsWell.refl (s : State) : RunsWell 0 s s := ⟨run_zero s, rfl⟩

theorem RunsWell.of_step {s t : State} (h : step s = .next t) (hf : t.fault = false) : RunsWell 1 s t :=
  ⟨run_next 0 h, goesWell_next 0 h hf⟩

theorem RunsWell.trans {j k : Nat} {s t u : State} (h : RunsWell j s t) (h' : RunsWell k t u) : RunsWell (j + k) s u := by
  obtain ⟨hrun, hwell⟩ := h
  obtain ⟨hrun', hwell'⟩ := h'
  exact ⟨(run_add j k hrun).trans hrun', (goesWell_add j k hrun hwell).trans hwell'⟩

/-! ### Writing to `BUF` (R51, R78) -/

theorem runsWell_writeMoves (bytes : List Byte) {addr : Nat} {s : State} {rest : List HostMove} (he : s.engine = none)
    (hf : s.fault = false) (hm : s.moves = writeMoves addr bytes ++ rest)
    (hin : addr + bytes.length ≤ s.params.bufLen) :
    RunsWell bytes.length s ({ s with moves := rest }.memWrite addr bytes) := by
  induction bytes generalizing addr s with
  | nil =>
    obtain rfl : rest = s.moves := hm.symm
    exact RunsWell.refl s
  | cons b bytes ih =>
    rw [List.length_cons] at hin ⊢
    have hstep := step_of_writeBuf he hm (by omega)
    have hrest := ih (s := { s with moves := writeMoves (addr + 1) bytes ++ rest }.memWrite addr [b]) (addr := addr + 1)
      he hf rfl (show addr + 1 + bytes.length ≤ s.params.bufLen by omega)
    rw [Nat.add_comm]
    exact (RunsWell.of_step hstep hf).trans hrest

theorem State.memRead_memWrite (s : State) (addr : Nat) (bytes : List Byte) :
    (s.memWrite addr bytes).memRead addr bytes.length = bytes := by
  apply List.ext_getElem?
  intro k
  rcases Nat.lt_or_ge k bytes.length with hk | hk
  · rw [State.memRead_getElem? _ _ hk, State.bufByte_memWrite_of_lt _ _ hk, List.getElem?_eq_getElem hk]
  · rw [List.getElem?_eq_none (by rwa [State.memRead_length]), List.getElem?_eq_none hk]

theorem State.memRead_add (s : State) (addr m n : Nat) :
    s.memRead addr (m + n) = s.memRead addr m ++ s.memRead (addr + m) n := by
  induction m generalizing addr with
  | zero => rw [Nat.zero_add, Nat.add_zero, State.memRead, List.nil_append]
  | succ m ih =>
    rw [Nat.succ_add, State.memRead, ih, State.memRead, List.cons_append, Nat.add_assoc addr, Nat.add_comm 1]

/-! ### Issuing a command (R33, R73) -/

theorem issue_eq {i : Instr} (hi : isCommand i = true) :
    ∃ cw, encode i = .cmd cw ∧ issue i = [.command cw zeroQuad] := by
  cases i with
  | init | get | set | process | rclean | destroy => exact ⟨_, rfl, rfl⟩
  | rnd1 | rnd2 | rnd3 | rnd4 => cases hi

/-- The state in which a command issued by `issue` executes. -/
def State.issued (s : State) (rest : List HostMove) : State := { s with moves := rest, din := zeroQuad }

theorem step_of_issue {i : Instr} {s : State} {rest : List HostMove} (hi : isCommand i = true) (hwf : i.wf = true)
    (he : s.engine = none) (hm : s.moves = issue i ++ rest) : step s = exec i (s.issued rest) := by
  obtain ⟨cw, henc, hissue⟩ := issue_eq hi
  have hdec : decodeCommand cw = .ok i := by rw [← decodeOfEncode i hwf, henc, decode]
  rw [hissue] at hm
  exact stepRunsTheIssuedCommand s cw zeroQuad rest i he hm hdec

/-! ### One block that stands in `BUF` (R193) -/

/-- The readings of the host's check after one block. -/
def checkReadings (check : Bool) (s : State) : List Reading := if check then [.statusWords s.status s.finfo] else []

/-- What the host's check leaves. -/
def State.checked (s : State) (check : Bool) (rest : List HostMove) : State :=
  { s with moves := rest, held := checkReadings check s ++ s.held }

theorem runsWell_check (check : Bool) {s : State} {rest : List HostMove} (he : s.engine = none) (hf : s.fault = false)
    (hm : s.moves = (if check then [.readStatus] else []) ++ rest) :
    RunsWell (if check then 1 else 0) s (s.checked check rest) := by
  cases check with
  | false =>
    obtain rfl : rest = s.moves := hm.symm
    exact RunsWell.refl s
  | true => exact RunsWell.of_step (step_of_move he hm) hf

theorem step_of_issue_process {off : Nat} {s : State} {rest : List HostMove} (hs : s.ready) (he : s.engine = none)
    (hlen : s.params.bufLen ≤ 2 ^ 28) (hoff : off + 64 ≤ s.params.bufLen)
    (hm : s.moves = issue (.process off) ++ rest) :
    ∃ w, step s = .next ((s.issued rest).withBlock (compress s.h (s.memRead off 64)) w none) := by
  have hwf : (Instr.process off).wf = true := decide_eq_true (by omega)
  have hmem : (s.issued rest).memRead off 64 = s.memRead off 64 := State.memRead_congr rfl rfl off 64
  have hexec := execProcess_of_ready (s := s.issued rest) hs hoff
  rw [hmem] at hexec
  exact ⟨_, (step_of_issue rfl hwf he hm).trans hexec⟩

/-- What the host's check and `RCLEAN` leave. -/
def State.checkedAndCleaned (s : State) (check : Bool) (rest : List HostMove) : State :=
  ((s.checked check rest).issued rest).clearSchedule

theorem runsWell_check_rclean (check : Bool) {s : State} {rest : List HostMove} (he : s.engine = none)
    (hf : s.fault = false) (hm : s.moves = (if check then [.readStatus] else []) ++ (issue .rclean ++ rest)) :
    RunsWell ((if check then 1 else 0) + 1) s (s.checkedAndCleaned check rest) := by
  have hissue := step_of_issue (i := .rclean) (s := s.checked check (issue .rclean ++ rest)) rfl rfl he rfl
  have hrclean := hissue.trans (execRclean_of_no_fault hf)
  exact (runsWell_check check he hf hm).trans (RunsWell.of_step hrclean hf)

/-! ### Blocks in order (R137, R198) -/

/-- `t` is what the host's moves for `blocks` leave of `s`, as far as later blocks and the host can tell. -/
structure BlocksDone (check : Bool) (blocks : List (List Byte)) (s t : State) : Prop where
  ready : t.ready
  engine : t.engine = none
  params : t.params = s.params
  status : t.status = s.status
  finfo : t.finfo = s.finfo
  h : t.h = compressAll s.h blocks
  w : t.w = if blocks = [] then s.w else zeroSchedule
  held : t.held = List.replicate (if check then blocks.length else 0) (.statusWords s.status s.finfo) ++ s.held

theorem BlocksDone.trans {check : Bool} {bs bs' : List (List Byte)} {s t u : State} (h : BlocksDone check bs s t)
    (h' : BlocksDone check bs' t u) : BlocksDone check (bs ++ bs') s u where
  ready := h'.ready
  engine := h'.engine
  params := h'.params.trans h.params
  status := h'.status.trans h.status
  finfo := h'.finfo.trans h.finfo
  h := by rw [h'.h, h.h, compressAll, compressAll, compressAll, List.foldl_append]
  w := by
    rw [h'.w, h.w]
    cases bs <;> cases bs' <;> rfl
  held := by
    rw [h'.held, h.held, h.status, h.finfo, ← List.append_assoc, List.replicate_append_replicate, List.length_append]
    cases check with
    | false => rfl
    | true => rw [if_pos rfl, if_pos rfl, if_pos rfl, Nat.add_comm]

/-- Writing to `BUF` completes no block. -/
theorem blocksDone_memWrite {check : Bool} {s : State} (hs : s.ready) (he : s.engine = none) (rest : List HostMove)
    (addr : Nat) (bytes : List Byte) : BlocksDone check [] s ({ s with moves := rest }.memWrite addr bytes) where
  ready := hs
  engine := he
  params := rfl
  status := rfl
  finfo := rfl
  h := rfl
  w := rfl
  held := by cases check <;> rfl

/-- The state a block, its check and its `RCLEAN` lead to, when the block has left `h` and `w`. -/
def State.blockDone (s : State) (h : Quad) (w : Vector Word 16) (check : Bool) (rest' rest : List HostMove) : State :=
  ((s.issued rest').withBlock h w none).checkedAndCleaned check rest

theorem blocksDone_blockDone {check : Bool} {s : State} (hs : s.ready) {h : Quad} {blk : List Byte}
    (hh : h = compress s.h blk) (w : Vector Word 16) (rest' rest : List HostMove) :
    BlocksDone check [blk] s (s.blockDone h w check rest' rest) where
  ready := hs
  engine := rfl
  params := rfl
  status := rfl
  finfo := rfl
  h := hh
  w := rfl
  held := by cases check <;> rfl

theorem blockDone_moves (s : State) (h : Quad) (w : Vector Word 16) (check : Bool) (rest' rest : List HostMove) :
    (s.blockDone h w check rest' rest).moves = rest := rfl

theorem memRead_blockDone (s : State) (h : Quad) (w : Vector Word 16) (check : Bool) (rest' rest : List HostMove)
    (addr n : Nat) : (s.blockDone h w check rest' rest).memRead addr n = s.memRead addr n :=
  State.memRead_congr (s := s) (t := s.blockDone h w check rest' rest) rfl rfl addr n

/-- One block that stands at `off`: it is done, and `BUF` is as it was. -/
theorem runsWell_processMoves (check : Bool) {off : Nat} {s : State} {rest : List HostMove} (hs : s.ready)
    (he : s.engine = none) (hlen : s.params.bufLen ≤ 2 ^ 28) (hoff : off + 64 ≤ s.params.bufLen)
    (hm : s.moves = processMoves check off ++ rest) :
    ∃ u, RunsWell (processMoves check off).length s u ∧ BlocksDone check [s.memRead off 64] s u ∧ u.moves = rest ∧
      ∀ addr n, u.memRead addr n = s.memRead addr n := by
  rw [processMoves, List.append_assoc, List.append_assoc] at hm
  obtain ⟨w, hprocess⟩ := step_of_issue_process hs he hlen hoff hm
  have hcount : (processMoves check off).length = 1 + ((if check then 1 else 0) + 1) := by
    rw [processMoves_length]
    cases check <;> rfl
  have hf (rest' : List HostMove) :
      ((s.issued rest').withBlock (compress s.h (s.memRead off 64)) w none).fault = false :=
    (State.withBlock_fault ..).trans hs.2
  have hclean := runsWell_check_rclean check (rest := rest) (State.withBlock_engine ..) (hf _) rfl
  have hrun := (RunsWell.of_step hprocess (hf _)).trans hclean
  rw [← hcount] at hrun
  exact ⟨_, hrun, blocksDone_blockDone hs rfl w _ rest, blockDone_moves .., memRead_blockDone s _ w check _ rest⟩

theorem flatten_length_of_blocks {blocks : List (List Byte)} (h : ∀ blk ∈ blocks, blk.length = 64) :
    blocks.flatten.length = 64 * blocks.length := by
  rw [List.length_flatten, List.sum_eq_card_nsmul _ 64 (by simpa using h), List.length_map, smul_eq_mul, Nat.mul_comm]

/-- The first of the blocks that stand in `BUF` from `off` on, and the others after it. -/
theorem memRead_blocks_cons {s : State} {off : Nat} {blk : List Byte} {blocks : List (List Byte)}
    (hblk : blk.length = 64)
    (hmem : s.memRead off (64 * (blk :: blocks).length) = (blk :: blocks).flatten) :
    s.memRead off 64 = blk ∧ s.memRead (off + 64) (64 * blocks.length) = blocks.flatten := by
  rw [List.length_cons, Nat.mul_succ, Nat.add_comm, State.memRead_add, List.flatten_cons] at hmem
  exact List.append_inj hmem (by rw [State.memRead_length, hblk])

theorem runsWell_processRun (check : Bool) (blocks : List (List Byte)) {off : Nat} {s : State} {rest : List HostMove}
    (hs : s.ready) (he : s.engine = none) (hlen : s.params.bufLen ≤ 2 ^ 28)
    (hblocks : ∀ blk ∈ blocks, blk.length = 64) (hfit : off + 64 * blocks.length ≤ s.params.bufLen)
    (hmem : s.memRead off (64 * blocks.length) = blocks.flatten)
    (hm : s.moves = processRun check off blocks.length ++ rest) :
    ∃ t, RunsWell (processRun check off blocks.length).length s t ∧ BlocksDone check blocks s t ∧ t.moves = rest := by
  induction blocks generalizing off s with
  | nil =>
    obtain rfl : rest = s.moves := hm.symm
    exact ⟨s, RunsWell.refl s, blocksDone_memWrite hs he s.moves off [], rfl⟩
  | cons blk blocks ih =>
    obtain ⟨hblk, hblocks⟩ := List.forall_mem_cons.mp hblocks
    obtain ⟨hfirst, hothers⟩ := memRead_blocks_cons hblk hmem
    rw [List.length_cons] at hfit hm ⊢
    rw [processRun, List.append_assoc] at hm
    obtain ⟨u, hrun, hdone, humoves, humem⟩ := runsWell_processMoves check hs he hlen (by omega) hm
    rw [hfirst] at hdone
    obtain ⟨t, hrun', hdone', hrest⟩ := ih hdone.ready hdone.engine (hdone.params ▸ hlen) hblocks
      (by rw [hdone.params]; omega) ((humem _ _).trans hothers) humoves
    refine ⟨t, ?_, hdone.trans hdone', hrest⟩
    rw [processRun, List.length_append]
    exact hrun.trans hrun'

/-! ### Batches (R193) -/

theorem Params.bufLen_le_of_wf {p : Params} (hp : p.wf = true) : p.bufLen ≤ 2 ^ 28 := by
  rw [Params.wf, Bool.and_eq_true, decide_eq_true_eq, decide_eq_true_eq] at hp
  exact hp.2

/-- The bytes of a batch are written, and then its blocks stand in `BUF` in order. -/
theorem runsWell_batch (check : Bool) {b : Batch} {s : State} {rest : List HostMove} (hs : s.ready)
    (he : s.engine = none) (hp : s.params.wf = true) (hfits : b.fits s.params = true)
    (hm : s.moves = b.moves check ++ rest) :
    ∃ t, RunsWell (b.moves check).length s t ∧ BlocksDone check b.blocks s t ∧ t.moves = rest := by
  obtain ⟨hblocks, hin⟩ := (Batch.fits_iff s.params b).mp hfits
  have hbytes := flatten_length_of_blocks hblocks
  rw [Batch.moves, List.append_assoc] at hm
  have hwrite := runsWell_writeMoves b.blocks.flatten he hs.2 hm (by rw [hbytes]; exact hin)
  have hdone := blocksDone_memWrite (check := check) hs he (processRun check b.off b.blocks.length ++ rest) b.off
    b.blocks.flatten
  have hmem := State.memRead_memWrite { s with moves := processRun check b.off b.blocks.length ++ rest } b.off
    b.blocks.flatten
  rw [hbytes] at hmem
  obtain ⟨t, hrun, hdone', hrest⟩ := runsWell_processRun check b.blocks hdone.ready hdone.engine
    (Params.bufLen_le_of_wf hp) hblocks hin hmem rfl
  refine ⟨t, ?_, hdone.trans hdone', hrest⟩
  rw [Batch.moves, List.length_append, writeMoves_length]
  exact hwrite.trans hrun

theorem runsWell_batches (check : Bool) (bs : List Batch) {s : State} {rest : List HostMove} (hs : s.ready)
    (he : s.engine = none) (hp : s.params.wf = true) (hfits : bs.all (Batch.fits s.params) = true)
    (hm : s.moves = batchesMoves check bs ++ rest) :
    ∃ t, RunsWell (batchesMoves check bs).length s t ∧ BlocksDone check (batchesBlocks bs) s t ∧ t.moves = rest := by
  induction bs generalizing s with
  | nil =>
    obtain rfl : rest = s.moves := hm.symm
    exact ⟨s, RunsWell.refl s, blocksDone_memWrite hs he s.moves 0 [], rfl⟩
  | cons b bs ih =>
    rw [List.all_cons, Bool.and_eq_true] at hfits
    obtain ⟨hb, hbs⟩ := hfits
    rw [batchesMoves_cons, List.append_assoc] at hm
    obtain ⟨u, hrun, hdone, humoves⟩ := runsWell_batch check hs he hp hb hm
    obtain ⟨t, hrun', hdone', hrest⟩ := ih hdone.ready hdone.engine (hdone.params ▸ hp) (hdone.params ▸ hbs) humoves
    refine ⟨t, ?_, hdone.trans hdone', hrest⟩
    rw [batchesMoves_cons, List.length_append]
    exact hrun.trans hrun'

theorem checkPassed_statusWords (s : State) (finfo : Word) :
    (Reading.statusWords s.status finfo).checkPassed = !s.fault := by
  rw [Reading.checkPassed, s.status_fault]

/-- Settles O53: the batches in order; each reading shows the status of the start, which has no fault recorded. -/
theorem blocksAdvanceTheDigestState : Obligations.BlocksAdvanceTheDigestState := by
  intro check bs rest s hs he hp hfits hm
  obtain ⟨t, ⟨hrun, hwell⟩, hdone, hrest⟩ := runsWell_batches check bs hs he hp hfits hm
  refine ⟨t, _, hrun, hwell, hdone.ready, hdone.engine, hdone.params, hrest, hdone.h, fun hne j => ?_, hdone.held,
    List.length_replicate, fun r hr => ?_⟩
  · rw [hdone.w, if_neg hne]
    exact zeroSchedule_getElem j
  · obtain rfl := List.eq_of_mem_replicate hr
    exact ⟨rfl, by rw [checkPassed_statusWords, hs.2, Bool.not_false]⟩

/-! ### `SET` of what a `GET` delivered (R146) -/

/-- Settles O28: equal `H`, and then equal blocks, lead to equal `H`. -/
theorem setOfGetRestores : Obligations.SetOfGetRestores := by
  intro s u hf hu
  refine ⟨_, _, execGet_of_no_fault hf, execSet_of_no_fault (s := { u with din := s.h }) hu.2, rfl,
    fun off₁ off₂ hlife hoff₁ hoff₂ hblock => ?_,
    fun c₁ c₂ bs₁ bs₂ hlife he he' hp hp' hfits hfits' hblocks => ?_⟩
  · refine ⟨_, _, execProcess_of_ready (s := { s with dout := s.h }) ⟨hlife, hf⟩ hoff₁,
      execProcess_of_ready (s := { u with din := s.h, h := s.h }) hu hoff₂, ?_⟩
    rw [State.withBlock_h, State.withBlock_h, hblock]
  · obtain ⟨g, ⟨hrun, -⟩, hdone, -⟩ := runsWell_batches c₁ bs₁
      (s := { s with dout := s.h, moves := batchesMoves c₁ bs₁ }) ⟨hlife, hf⟩ he hp hfits (List.append_nil _).symm
    obtain ⟨v, ⟨hrun', -⟩, hdone', -⟩ := runsWell_batches c₂ bs₂
      (s := { u with din := s.h, h := s.h, moves := batchesMoves c₂ bs₂ }) hu he' hp' hfits' (List.append_nil _).symm
    exact ⟨g, v, hrun, hrun', by rw [hdone'.h, hdone.h, hblocks]⟩

/-! ### One digest computation (R206) -/

theorem runsWell_start {start : ComputationStart} {s : State} {rest : List HostMove} (hbegin : start.admits s)
    (hm : s.moves = start.moves ++ rest) :
    ∃ u, RunsWell start.moves.length s u ∧ u.ready ∧ u.engine = none ∧ u.params = s.params ∧ u.h = iv ∧
      u.held = s.held ∧ u.moves = rest := by
  cases start with
  | init =>
    have hstep := step_of_issue (i := .init) rfl rfl hbegin hm
    exact ⟨(s.issued rest).construct, RunsWell.of_step hstep rfl, ⟨rfl, rfl⟩, hbegin, rfl, rfl, rfl, rfl⟩
  | reset => exact ⟨_, RunsWell.of_step (step_of_reset hm) rfl, ⟨rfl, rfl⟩, rfl, rfl, rfl, rfl, rfl⟩
  | constructed =>
    obtain ⟨he, hlife, hf, hh⟩ := hbegin
    exact ⟨s, RunsWell.refl s, ⟨hlife, hf⟩, he, rfl, hh, rfl, hm⟩

/-- The end of a computation: `GET`, the reading of `DOUT`, `DESTROY`. -/
def digestEnd : List HostMove := issue .get ++ (.readDout :: issue .destroy)

/-- The state before the last command of a computation. -/
def State.delivered (s : State) : State :=
  { s with moves := [], din := zeroQuad, dout := s.h, held := .doutWords s.h :: s.held }

theorem runsWell_digestEnd {s : State} (he : s.engine = none) (hf : s.fault = false) (hm : s.moves = digestEnd) :
    RunsWell digestEnd.length s s.delivered.zeroised := by
  have hget := (step_of_issue (i := .get) rfl rfl he hm).trans (execGet_of_no_fault hf)
  have hread : step { s.issued (.readDout :: issue .destroy) with dout := s.h } =
      .next { s.delivered with moves := issue .destroy } :=
    step_of_move (s := { s.issued (.readDout :: issue .destroy) with dout := s.h }) he rfl
  have hdestroy : step { s.delivered with moves := issue .destroy } = .next s.delivered.zeroised :=
    step_of_issue (i := .destroy) (s := { s.delivered with moves := issue .destroy }) (rest := []) rfl rfl he rfl
  exact (RunsWell.of_step hget hf).trans ((RunsWell.of_step hread hf).trans (RunsWell.of_step hdestroy hf))

/-- Settles O52: the beginning, the batches, the end. -/
theorem digestRunYieldsMd5 : Obligations.DigestRunYieldsMd5 := by
  intro m pl s hp hwf hbegin hm
  obtain ⟨hfits, hblocks⟩ := (DigestPlan.wf_iff s.params m pl).mp hwf
  obtain ⟨u, hstart, hu, hue, hup, huh, huheld, humoves⟩ := runsWell_start hbegin hm
  rw [← hup] at hp hfits
  obtain ⟨v, hbatches, hdone, hvmoves⟩ := runsWell_batches pl.check pl.batches hu hue hp hfits humoves
  have hend := runsWell_digestEnd hdone.engine hdone.ready.2 hvmoves
  have hlength : s.moves.length =
      pl.start.moves.length + ((batchesMoves pl.check pl.batches).length + digestEnd.length) := by
    rw [hm, DigestPlan.moves, List.length_append, List.length_append]
    rfl
  obtain ⟨hrun, hwell⟩ := hstart.trans (hbatches.trans hend)
  rw [← hlength] at hrun hwell
  have hh : v.h = compressAll iv (messageBlocks m) := by rw [hdone.h, huh, hblocks]
  have hheld := hdone.held
  rw [huheld] at hheld
  refine ⟨v.delivered.zeroised, v.h, _, hrun, hwell, congrArg (Reading.doutWords v.h :: ·) hheld, fun r hr => ?_, ?_, rfl,
    zeroSchedule_getElem, rfl, fun a ha => ?_, rfl⟩
  · obtain rfl := List.eq_of_mem_replicate hr
    rw [checkPassed_statusWords, hu.2, Bool.not_false]
  · rw [hh, md5]
  · have hlt : a < v.params.bufLen := by rwa [hdone.params, hup]
    exact State.bufByte_of_read (State.zeroised_read_of_lt (s := v.delivered) hlt)

end Sys2Proof.Machine
end
